-- ==== Sys2Proof/Word.lean ====
section
/-! DEFINITION. The word types of the machine (spec/00_scope.md R7, R8, R9): every value is an unsigned integer of its
stated width, and bit 0 is the least significant bit. -/

namespace Sys2Proof

/-- A byte: a register, a timer, a memory cell, an immediate `nn` (R7, R83). -/
abbrev Byte := BitVec 8

/-- A 16-bit word: an instruction, `pc`, `I`, a stack entry (R7). -/
abbrev Word := BitVec 16

/-- A 4-bit field of an instruction (R81); also the sprite height `n` of DXYN. -/
abbrev Nibble := BitVec 4

/-- A register number: every one of the 16 values of the 4-bit field names a register, V0 to VF (R21, R84). -/
abbrev Reg := Nibble

/-- The 12-bit address immediate `nnn` (R81, R83). -/
abbrev Addr12 := BitVec 12

/-- VF, register 15, which is also the flag (R22). -/
def VF : Reg := 15#4

/-- V0, the register BNNN adds (R84, R144). -/
def V0 : Reg := 0#4

end Sys2Proof
end

