-- ==== Sys2Proof/Machine/Flags.lean ====
section
/-! DEFINITION. The values VF takes as a flag (spec/10_state.md R36), each computed from the operands as they were before
any write (spec/40_cycle.md R123). A flag is the byte 0 or 1. -/

namespace Sys2Proof.Machine

/-- A truth value as the byte VF holds. -/
def flagByte (b : Bool) : Byte := if b then 1#8 else 0#8

/-- 8XY4: the unsigned sum does not fit 8 bits (R187). -/
def carryFlag (vx vy : Byte) : Byte := flagByte (vx.toNat + vy.toNat > 255)

/-- 8XY5 and 8XY7: no borrow in `a - b` (R188, R190). -/
def noBorrowFlag (a b : Byte) : Byte := flagByte (a.toNat ≥ b.toNat)

/-- 8XY6: the bit shifted out on the right (R189). -/
def lowBitFlag (v : Byte) : Byte := v &&& 1#8

/-- 8XYE: the bit shifted out on the left (R191). -/
def highBitFlag (v : Byte) : Byte := v >>> 7

/-- DXYN: some pixel was turned from on to off (R252, R256). -/
def collisionFlag (c : Bool) : Byte := flagByte c

end Sys2Proof.Machine
end

