-- ==== Sys2Proof/Syntax.lean ====
section
/-! DEFINITION. The instructions: one constructor per row of spec/opcode_table.json, named as the table names them
(spec/30_encoding.md R92), with every field of the row, the unused ones too (R93). -/

namespace Sys2Proof

inductive Instr where
  /-- 0NNN, the no-op; `nnn` is decoded and ignored (R140). -/
  | callMachineRoutine (nnn : Addr12)
  /-- 00E0 (R251). -/
  | clearScreen
  /-- 00EE (R141). -/
  | returnSubroutine
  /-- 1NNN (R142). -/
  | jump (nnn : Addr12)
  /-- 2NNN (R143). -/
  | callSubroutine (nnn : Addr12)
  /-- 3XNN (R161). -/
  | skipIfEqValue (x : Reg) (nn : Byte)
  /-- 4XNN (R162). -/
  | skipIfNotEqValue (x : Reg) (nn : Byte)
  /-- 5XY0 (R163). -/
  | skipIfEqRegister (x y : Reg)
  /-- 6XNN (R181). -/
  | setRegisterToValue (x : Reg) (nn : Byte)
  /-- 7XNN (R182). -/
  | addRegisterValue (x : Reg) (nn : Byte)
  /-- 8XY0 (R183). -/
  | copy (x y : Reg)
  /-- 8XY1, the table's Or (R184). -/
  | orRegisters (x y : Reg)
  /-- 8XY2, the table's And (R185). -/
  | andRegisters (x y : Reg)
  /-- 8XY3, the table's Xor (R186). -/
  | xorRegisters (x y : Reg)
  /-- 8XY4 (R187). -/
  | addRegisters (x y : Reg)
  /-- 8XY5 (R188). -/
  | subRegisters (x y : Reg)
  /-- 8XY6; `y` is decoded and ignored (R189). -/
  | shiftRight (x y : Reg)
  /-- 8XY7 (R190). -/
  | reverseSub (x y : Reg)
  /-- 8XYE; `y` is decoded and ignored (R191). -/
  | shiftLeft (x y : Reg)
  /-- 9XY0 (R164). -/
  | skipIfNotEqRegister (x y : Reg)
  /-- ANNN (R220). -/
  | setIndex (nnn : Addr12)
  /-- BNNN (R144). -/
  | jumpPlus (nnn : Addr12)
  /-- CXNN (R192). -/
  | random (x : Reg) (nn : Byte)
  /-- DXYN (R252). -/
  | draw (x y : Reg) (n : Nibble)
  /-- EX9E (R281). -/
  | skipIfKeyPressed (x : Reg)
  /-- EXA1 (R282). -/
  | skipIfKeyNotPressed (x : Reg)
  /-- FX07 (R283). -/
  | getDelay (x : Reg)
  /-- FX0A (R284). -/
  | getKeyBlocking (x : Reg)
  /-- FX15 (R285). -/
  | setDelay (x : Reg)
  /-- FX18 (R286). -/
  | setSound (x : Reg)
  /-- FX1E (R221). -/
  | addToIndex (x : Reg)
  /-- FX29, a no-op here; `x` is decoded and ignored (R222). -/
  | setIndexToSpriteChar (x : Reg)
  /-- FX33 (R223). -/
  | storeBCD (x : Reg)
  /-- FX55; `x` is also a count (R224). -/
  | dumpRegisters (x : Reg)
  /-- FX65; `x` is also a count (R225). -/
  | loadRegisters (x : Reg)
  deriving DecidableEq, Repr

end Sys2Proof
end

