-- ==== Sys2Proof/WellFormed.lean ====
section
/-! DEFINITION. Which terms of Instr are instructions of the machine: those some 16-bit word stands for. The types of
the fields already hold every operand to its width (spec/30_encoding.md R81, R84), so one check is left: the words
0x00E0 and 0x00EE are ClearScreen and ReturnSubroutine, never 0NNN (R86, D16). -/

namespace Sys2Proof

/-- The operands of 0NNN: every `nnn` but the two that other instructions take (R86). -/
def Addr12.isMachineRoutine (nnn : Addr12) : Bool := nnn ≠ 0x0E0#12 && nnn ≠ 0x0EE#12

/-- The instruction is one a word stands for. -/
def Instr.wf : Instr → Bool
  | .callMachineRoutine nnn => Addr12.isMachineRoutine nnn
  | .clearScreen => true
  | .returnSubroutine => true
  | .jump _ => true
  | .callSubroutine _ => true
  | .skipIfEqValue _ _ => true
  | .skipIfNotEqValue _ _ => true
  | .skipIfEqRegister _ _ => true
  | .setRegisterToValue _ _ => true
  | .addRegisterValue _ _ => true
  | .copy _ _ => true
  | .orRegisters _ _ => true
  | .andRegisters _ _ => true
  | .xorRegisters _ _ => true
  | .addRegisters _ _ => true
  | .subRegisters _ _ => true
  | .shiftRight _ _ => true
  | .reverseSub _ _ => true
  | .shiftLeft _ _ => true
  | .skipIfNotEqRegister _ _ => true
  | .setIndex _ => true
  | .jumpPlus _ => true
  | .random _ _ => true
  | .draw _ _ _ => true
  | .skipIfKeyPressed _ => true
  | .skipIfKeyNotPressed _ => true
  | .getDelay _ => true
  | .getKeyBlocking _ => true
  | .setDelay _ => true
  | .setSound _ => true
  | .addToIndex _ => true
  | .setIndexToSpriteChar _ => true
  | .storeBCD _ => true
  | .dumpRegisters _ => true
  | .loadRegisters _ => true

end Sys2Proof
end

