-- ==== Sys2Proof/Decode.lean ====
section
/-! DEFINITION. The decoder, total on every word and every list of bytes, written as the nested switch of
spec/30_encoding.md R85 to R91, and after it the encoder, written from the encoding column of the opcode map (R82, R92). -/

namespace Sys2Proof

/-- Why bytes are no instruction; each is the spec's `None` (R85). -/
inductive DecodeError where
  /-- Fewer than two bytes are left: an instruction is always 2 bytes (R80). -/
  | truncated
  /-- A word of family 0x5 or 0x9 with `n` other than 0 (R90). -/
  | nonzeroN (w : Word)
  /-- A word of family 0x8 with `n` in 8, 9, A, B, C, D, F (R87). -/
  | noFamily8Code (w : Word)
  /-- A word of family 0xE with `nn` other than 9E and A1 (R88). -/
  | noFamilyECode (w : Word)
  /-- A word of family 0xF with an `nn` outside the nine of R89. -/
  | noFamilyFCode (w : Word)
  deriving DecidableEq, Repr

/-! ## Fields (R81) -/

/-- `a`, bits 15:12, the family. -/
def aField (w : Word) : Nibble := w.extractLsb' 12 4
/-- `x`, bits 11:8. -/
def xField (w : Word) : Reg := w.extractLsb' 8 4
/-- `y`, bits 7:4. -/
def yField (w : Word) : Reg := w.extractLsb' 4 4
/-- `n`, bits 3:0. -/
def nField (w : Word) : Nibble := w.extractLsb' 0 4
/-- `nn`, bits 7:0. -/
def nnField (w : Word) : Byte := w.extractLsb' 0 8
/-- `nnn`, bits 11:0. -/
def nnnField (w : Word) : Addr12 := w.extractLsb' 0 12

/-! ## The two-level switch -/

/-- Family 0x0, switch on `nnn` (R86): the two exact words first, every other word is 0NNN. -/
def decodeFamily0 (w : Word) : Instr :=
  if nnnField w = 0x0E0#12 then .clearScreen
  else if nnnField w = 0x0EE#12 then .returnSubroutine
  else .callMachineRoutine (nnnField w)

/-- Families 0x5 and 0x9 require `n = 0` (R90). -/
def decodeFamilyXY0 (make : Reg → Reg → Instr) (w : Word) : Except DecodeError Instr :=
  if nField w = 0#4 then .ok (make (xField w) (yField w)) else .error (.nonzeroN w)

/-- Family 0x8, switch on `n` (R87). -/
def decodeFamily8 (w : Word) : Except DecodeError Instr :=
  match (nField w).toNat with
  | 0x0 => .ok (.copy (xField w) (yField w))
  | 0x1 => .ok (.orRegisters (xField w) (yField w))
  | 0x2 => .ok (.andRegisters (xField w) (yField w))
  | 0x3 => .ok (.xorRegisters (xField w) (yField w))
  | 0x4 => .ok (.addRegisters (xField w) (yField w))
  | 0x5 => .ok (.subRegisters (xField w) (yField w))
  | 0x6 => .ok (.shiftRight (xField w) (yField w))
  | 0x7 => .ok (.reverseSub (xField w) (yField w))
  | 0xE => .ok (.shiftLeft (xField w) (yField w))
  | _ => .error (.noFamily8Code w)

/-- Family 0xE, switch on `nn` (R88). -/
def decodeFamilyE (w : Word) : Except DecodeError Instr :=
  if nnField w = 0x9E#8 then .ok (.skipIfKeyPressed (xField w))
  else if nnField w = 0xA1#8 then .ok (.skipIfKeyNotPressed (xField w))
  else .error (.noFamilyECode w)

/-- Family 0xF, switch on `nn` (R89). -/
def decodeFamilyF (w : Word) : Except DecodeError Instr :=
  if nnField w = 0x07#8 then .ok (.getDelay (xField w))
  else if nnField w = 0x0A#8 then .ok (.getKeyBlocking (xField w))
  else if nnField w = 0x15#8 then .ok (.setDelay (xField w))
  else if nnField w = 0x18#8 then .ok (.setSound (xField w))
  else if nnField w = 0x1E#8 then .ok (.addToIndex (xField w))
  else if nnField w = 0x29#8 then .ok (.setIndexToSpriteChar (xField w))
  else if nnField w = 0x33#8 then .ok (.storeBCD (xField w))
  else if nnField w = 0x55#8 then .ok (.dumpRegisters (xField w))
  else if nnField w = 0x65#8 then .ok (.loadRegisters (xField w))
  else .error (.noFamilyFCode w)

/-- `Decode(w)`: the switch on the family `a` (R85, R91). The last arm is family 0xF. -/
def decodeWord (w : Word) : Except DecodeError Instr :=
  match (aField w).toNat with
  | 0x0 => .ok (decodeFamily0 w)
  | 0x1 => .ok (.jump (nnnField w))
  | 0x2 => .ok (.callSubroutine (nnnField w))
  | 0x3 => .ok (.skipIfEqValue (xField w) (nnField w))
  | 0x4 => .ok (.skipIfNotEqValue (xField w) (nnField w))
  | 0x5 => decodeFamilyXY0 .skipIfEqRegister w
  | 0x6 => .ok (.setRegisterToValue (xField w) (nnField w))
  | 0x7 => .ok (.addRegisterValue (xField w) (nnField w))
  | 0x8 => decodeFamily8 w
  | 0x9 => decodeFamilyXY0 .skipIfNotEqRegister w
  | 0xA => .ok (.setIndex (nnnField w))
  | 0xB => .ok (.jumpPlus (nnnField w))
  | 0xC => .ok (.random (xField w) (nnField w))
  | 0xD => .ok (.draw (xField w) (yField w) (nField w))
  | 0xE => decodeFamilyE w
  | _ => decodeFamilyF w

/-- The word of two bytes, the one at the lower address first: `{hi, lo}` (R56, R62). -/
def wordOfBytes (hi lo : Byte) : Word := hi ++ lo

/-- The byte an instruction has at the lower address: bits 15:8 (R62). -/
def highByte (w : Word) : Byte := w.extractLsb' 8 8

/-- The byte an instruction has at the higher address: bits 7:0 (R62). -/
def lowByte (w : Word) : Byte := w.extractLsb' 0 8

/-- Read one instruction off the front of a list of bytes, with the bytes that are left. -/
def decode : List Byte → Except DecodeError (Instr × List Byte)
  | hi :: lo :: rest =>
    match decodeWord (wordOfBytes hi lo) with
    | .ok i => .ok (i, rest)
    | .error e => .error e
  | _ => .error .truncated

/-! ## The encoder: the formats of R82 -/

/-- Format NNN. -/
def encodeNNN (a : Nibble) (nnn : Addr12) : Word := a ++ nnn

/-- Format XNN, and with a fixed `nn` format XS. -/
def encodeXNN (a : Nibble) (x : Reg) (nn : Byte) : Word := a ++ (x ++ nn)

/-- Format XYN, and with a fixed `n` formats XY0 and XYS. -/
def encodeXYN (a : Nibble) (x y : Reg) (n : Nibble) : Word := a ++ (x ++ (y ++ n))

/-- The word of an instruction, row by row of the opcode map (R92). -/
def encode : Instr → Word
  | .callMachineRoutine nnn => encodeNNN 0x0#4 nnn
  | .clearScreen => 0x00E0#16
  | .returnSubroutine => 0x00EE#16
  | .jump nnn => encodeNNN 0x1#4 nnn
  | .callSubroutine nnn => encodeNNN 0x2#4 nnn
  | .skipIfEqValue x nn => encodeXNN 0x3#4 x nn
  | .skipIfNotEqValue x nn => encodeXNN 0x4#4 x nn
  | .skipIfEqRegister x y => encodeXYN 0x5#4 x y 0x0#4
  | .setRegisterToValue x nn => encodeXNN 0x6#4 x nn
  | .addRegisterValue x nn => encodeXNN 0x7#4 x nn
  | .copy x y => encodeXYN 0x8#4 x y 0x0#4
  | .orRegisters x y => encodeXYN 0x8#4 x y 0x1#4
  | .andRegisters x y => encodeXYN 0x8#4 x y 0x2#4
  | .xorRegisters x y => encodeXYN 0x8#4 x y 0x3#4
  | .addRegisters x y => encodeXYN 0x8#4 x y 0x4#4
  | .subRegisters x y => encodeXYN 0x8#4 x y 0x5#4
  | .shiftRight x y => encodeXYN 0x8#4 x y 0x6#4
  | .reverseSub x y => encodeXYN 0x8#4 x y 0x7#4
  | .shiftLeft x y => encodeXYN 0x8#4 x y 0xE#4
  | .skipIfNotEqRegister x y => encodeXYN 0x9#4 x y 0x0#4
  | .setIndex nnn => encodeNNN 0xA#4 nnn
  | .jumpPlus nnn => encodeNNN 0xB#4 nnn
  | .random x nn => encodeXNN 0xC#4 x nn
  | .draw x y n => encodeXYN 0xD#4 x y n
  | .skipIfKeyPressed x => encodeXNN 0xE#4 x 0x9E#8
  | .skipIfKeyNotPressed x => encodeXNN 0xE#4 x 0xA1#8
  | .getDelay x => encodeXNN 0xF#4 x 0x07#8
  | .getKeyBlocking x => encodeXNN 0xF#4 x 0x0A#8
  | .setDelay x => encodeXNN 0xF#4 x 0x15#8
  | .setSound x => encodeXNN 0xF#4 x 0x18#8
  | .addToIndex x => encodeXNN 0xF#4 x 0x1E#8
  | .setIndexToSpriteChar x => encodeXNN 0xF#4 x 0x29#8
  | .storeBCD x => encodeXNN 0xF#4 x 0x33#8
  | .dumpRegisters x => encodeXNN 0xF#4 x 0x55#8
  | .loadRegisters x => encodeXNN 0xF#4 x 0x65#8

/-- The bytes of an instruction in memory order: big-endian (R80, R62). -/
def encodeBytes (i : Instr) : List Byte := [highByte (encode i), lowByte (encode i)]

/-! ## The opcode map as masks and matches (R92), a second account of the encoding beside the switch of R85 -/

/-- One row of the opcode map: its number, and the value `fixed` of the bits that `mask` selects. -/
structure OpcodeRow where
  number : Nat
  mask : Word
  fixed : Word
  deriving DecidableEq, Repr

/-- The opcode map (R92) in order of precedence: rows 2 and 3, 00E0 and 00EE, before row 1, 0NNN. -/
def opcodeMap : List OpcodeRow :=
  [⟨2, 0xFFFF#16, 0x00E0#16⟩,
   ⟨3, 0xFFFF#16, 0x00EE#16⟩,
   ⟨1, 0xF000#16, 0x0000#16⟩,
   ⟨4, 0xF000#16, 0x1000#16⟩,
   ⟨5, 0xF000#16, 0x2000#16⟩,
   ⟨6, 0xF000#16, 0x3000#16⟩,
   ⟨7, 0xF000#16, 0x4000#16⟩] ++
  [⟨8, 0xF00F#16, 0x5000#16⟩,
   ⟨9, 0xF000#16, 0x6000#16⟩,
   ⟨10, 0xF000#16, 0x7000#16⟩,
   ⟨11, 0xF00F#16, 0x8000#16⟩,
   ⟨12, 0xF00F#16, 0x8001#16⟩,
   ⟨13, 0xF00F#16, 0x8002#16⟩,
   ⟨14, 0xF00F#16, 0x8003#16⟩] ++
  [⟨15, 0xF00F#16, 0x8004#16⟩,
   ⟨16, 0xF00F#16, 0x8005#16⟩,
   ⟨17, 0xF00F#16, 0x8006#16⟩,
   ⟨18, 0xF00F#16, 0x8007#16⟩,
   ⟨19, 0xF00F#16, 0x800E#16⟩,
   ⟨20, 0xF00F#16, 0x9000#16⟩,
   ⟨21, 0xF000#16, 0xA000#16⟩] ++
  [⟨22, 0xF000#16, 0xB000#16⟩,
   ⟨23, 0xF000#16, 0xC000#16⟩,
   ⟨24, 0xF000#16, 0xD000#16⟩,
   ⟨25, 0xF0FF#16, 0xE09E#16⟩,
   ⟨26, 0xF0FF#16, 0xE0A1#16⟩,
   ⟨27, 0xF0FF#16, 0xF007#16⟩,
   ⟨28, 0xF0FF#16, 0xF00A#16⟩] ++
  [⟨29, 0xF0FF#16, 0xF015#16⟩,
   ⟨30, 0xF0FF#16, 0xF018#16⟩,
   ⟨31, 0xF0FF#16, 0xF01E#16⟩,
   ⟨32, 0xF0FF#16, 0xF029#16⟩,
   ⟨33, 0xF0FF#16, 0xF033#16⟩,
   ⟨34, 0xF0FF#16, 0xF055#16⟩,
   ⟨35, 0xF0FF#16, 0xF065#16⟩]

/-- A word has the fixed bits of a row. -/
def OpcodeRow.selects (row : OpcodeRow) (w : Word) : Bool := w &&& row.mask = row.fixed

/-- The number of the row the opcode map selects for a word, if any (R92). -/
def mapRow (w : Word) : Option Nat := (opcodeMap.find? (·.selects w)).map (·.number)

/-- The number of an instruction's row in the opcode map (R92). -/
def Instr.number : Instr → Nat
  | .callMachineRoutine _ => 1
  | .clearScreen => 2
  | .returnSubroutine => 3
  | .jump _ => 4
  | .callSubroutine _ => 5
  | .skipIfEqValue _ _ => 6
  | .skipIfNotEqValue _ _ => 7
  | .skipIfEqRegister _ _ => 8
  | .setRegisterToValue _ _ => 9
  | .addRegisterValue _ _ => 10
  | .copy _ _ => 11
  | .orRegisters _ _ => 12
  | .andRegisters _ _ => 13
  | .xorRegisters _ _ => 14
  | .addRegisters _ _ => 15
  | .subRegisters _ _ => 16
  | .shiftRight _ _ => 17
  | .reverseSub _ _ => 18
  | .shiftLeft _ _ => 19
  | .skipIfNotEqRegister _ _ => 20
  | .setIndex _ => 21
  | .jumpPlus _ => 22
  | .random _ _ => 23
  | .draw _ _ _ => 24
  | .skipIfKeyPressed _ => 25
  | .skipIfKeyNotPressed _ => 26
  | .getDelay _ => 27
  | .getKeyBlocking _ => 28
  | .setDelay _ => 29
  | .setSound _ => 30
  | .addToIndex _ => 31
  | .setIndexToSpriteChar _ => 32
  | .storeBCD _ => 33
  | .dumpRegisters _ => 34
  | .loadRegisters _ => 35

/-! ## The host's table words -/

/-- The word the host means by `nbits` bits `w` of a table row: the bits above `nbits` are 0. -/
def tableWord (nbits w : Nat) : Word := BitVec.ofNat 16 (w % 2 ^ nbits)

/-- The instruction the decoder reads from a table word laid out as the hardware stores it, big-endian. -/
def decodeTableWord (nbits w : Nat) : Option Instr :=
  match decode [highByte (tableWord nbits w), lowByte (tableWord nbits w)] with
  | .ok (i, _) => some i
  | .error _ => none

end Sys2Proof
end

