-- ==== Sys2Proof/Config.lean ====
section
/-! DEFINITION. What is fixed for one machine, and the free values: what the spec leaves open. -/

namespace Sys2Proof

/-- The machine's only configuration argument (spec/00_scope.md R7). `none` is the unbounded stack, the default;
`some d` is a stack of `d` entries (spec/92_eei_decisions.md D5). State carries it, so that a statement about every
state is one about every `STACK_LIMIT` (log 4). -/
structure Config where
  stackLimit : Option Nat
  deriving DecidableEq, Repr

/-- The default configuration: `STACK_LIMIT = none` (R7). -/
def Config.standard : Config := { stackLimit := none }

/-- FREE VALUE. The random bytes: `Config.randIn k` is the byte the `k`-th draw gets, the STEP input `rand_in` of that
step, "a free input under no law" (spec/60_exceptions.md R316, D12). It has no body that can be evaluated (log 3). -/
opaque Config.randIn : Nat → Byte

end Sys2Proof
end

