-- ==== Sys2Proof/Machine/State.lean ====
section
/-! DEFINITION. The state of the machine as plain data (spec/10_state.md R20, R38), the reasons a step of the model can
stop, and the state after reset (R39). -/

namespace Sys2Proof.Machine

/-! ## Fault records: the spec's own faults -/

/-- The causes of spec/60_exceptions.md R301, less code 0 (NONE), which is the absence of a record. -/
inductive FaultCause where
  | invalidOpcode
  | stackUnderflow
  | stackOverflow
  | memOutOfRange
  | reservedWrite
  | keyIndexOutOfRange
  deriving DecidableEq, Repr

/-- The fault record (R35, R302). -/
structure FaultRecord where
  cause : FaultCause
  pc : Word
  word : Word
  info : Word
  deriving DecidableEq, Repr

/-- The argument of the spec's `raise Fault(cause, info)` (spec/00_scope.md R10); an `info` of "none" is 0 (R301). -/
structure Raise where
  cause : FaultCause
  info : Word
  deriving DecidableEq, Repr

/-- The status register (R35). -/
inductive Status where
  | running
  | faulted
  deriving DecidableEq, Repr

/-! ## Memory and framebuffer as data -/

/-- Memory: the bytes that are not what an unlisted address reads as, addresses strictly rising
(`Memory.wf`, in Ops.lean). -/
abbrev Memory := List Host.Cell

/-- What an address with no entry reads as: 0, the reset contents of memory (R39). -/
def Memory.unlisted : Byte := 0#8

/-- The framebuffer: 32 rows of 64 columns, `fb[y][x]`, true meaning on (R33, spec/45_display.md R250). -/
abbrev Framebuffer := Vector (Vector Bool 64) 32

/-! ## The state -/

/-- Everything the spec gives the machine (R20), and the model's own `config` and `randCount`. -/
structure State where
  /-- The 4096 bytes of memory (spec/20_memory.md R50). -/
  mem : Memory
  /-- V0 to VF (R21). -/
  V : Vector Byte 16
  /-- The index register (R26). -/
  I : Word
  /-- The program counter (R24). -/
  pc : Word
  /-- The call stack, top first (R29). -/
  stack : List Word
  /-- The DELAY timer (R30). -/
  DT : Byte
  /-- The SOUND timer (R31). -/
  ST : Byte
  /-- The key states, true meaning down (R32). -/
  key : Vector Bool 16
  /-- The framebuffer (R33). -/
  fb : Framebuffer
  /-- The fault record. The status is FAULTED exactly when there is one (R20, R35). -/
  fault : Option FaultRecord
  /-- The model's own: the configuration argument (spec/00_scope.md R7), which no operation writes (log 4). -/
  config : Config
  /-- The model's own: how many random bytes have been drawn (log 3). -/
  randCount : Nat
  deriving DecidableEq, Repr

/-! ## Why a step of the model stops -/

/-- A stop with a fault. There is none: the spec gives every fault it names an effect, the FAULTED status and its record
(spec/40_cycle.md R116), and a STEP in FAULTED one too (R121); each is a next state (log 2). Safe: the type is empty,
so no claim can rest on a run that stops with a fault. -/
inductive Fault where
  deriving DecidableEq, Repr

/-- A stop with no meaning. -/
inductive Refusal where
  /-- An arm of `exec` whose instruction has no meaning yet; none is left. Safe: the model stops. -/
  | notModelled (mnemonic : String)
  /-- RESET with an image of more than 3584 bytes, which is not a legal RESET (spec/70_reset_and_hazards.md R352, D14).
  Raised by the host's RESET operation, by no instruction. Safe: the model has no transition for it (log 13). -/
  | imageTooLong
  deriving DecidableEq, Repr

/-- The outcome of an instruction, a step or a host operation. -/
abbrev Outcome := Host.Outcome State Fault Refusal

/-! ## Reset -/

/-- The initial `pc` and the address a program image is loaded at (R39, spec/70_reset_and_hazards.md R353). -/
def loadAddress : Nat := 0x200

/-- The state of R39 with an empty program image, for a configuration and a place in the random bytes. -/
def State.cleared (config : Config) (randCount : Nat) : State where
  mem := []
  V := Vector.replicate 16 0#8
  I := 0#16
  pc := BitVec.ofNat 16 loadAddress
  stack := []
  DT := 0#8
  ST := 0#8
  key := Vector.replicate 16 false
  fb := Vector.replicate 32 (Vector.replicate 64 false)
  fault := none
  config := config
  randCount := randCount

/-- The machine right after reset, with the default configuration and nothing loaded (log 6). -/
def State.reset : State := State.cleared Config.standard 0

end Sys2Proof.Machine
end

