-- ==== Sys2Proof/Machine/Ops.lean ====
section
/-! DEFINITION. The named operations over memory, registers, stack, keys and framebuffer, and taking a fault, the one
"exception entry" of this hardware. Everything else reads and writes State through these. -/

namespace Sys2Proof.Machine

/-! ## One write per component -/

def State.setMem (s : State) (m : Memory) : State := { s with mem := m }
def State.setI (s : State) (a : Word) : State := { s with I := a }
def State.setPc (s : State) (a : Word) : State := { s with pc := a }
def State.setStack (s : State) (st : List Word) : State := { s with stack := st }
def State.setDT (s : State) (b : Byte) : State := { s with DT := b }
def State.setST (s : State) (b : Byte) : State := { s with ST := b }
def State.setKey (s : State) (k : Vector Bool 16) : State := { s with key := k }
def State.setFb (s : State) (f : Framebuffer) : State := { s with fb := f }
def State.setFault (s : State) (f : Option FaultRecord) : State := { s with fault := f }
/-- Count one random byte as drawn. -/
def State.countDraw (s : State) : State := { s with randCount := s.randCount + 1 }

/-! ## Registers (R21): no register is hard-wired, none has a side effect -/

/-- `V[x]`. -/
def State.readV (s : State) (x : Reg) : Byte := s.V[x.toNat]'x.isLt

/-- `V[x] <- b`. -/
def State.writeV (s : State) (x : Reg) (b : Byte) : State := { s with V := s.V.set x.toNat b x.isLt }

/-! ## Program counter (spec/40_cycle.md R112, spec/42_skip.md R160): additions are modulo 2^16 -/

/-- The default advance `pc <- (pc + 2) mod 2^16`; a taken skip does it once more. -/
def State.advance (s : State) : State := s.setPc (s.pc + 2#16)

/-- FX0A's rewind `pc <- (pc - 2) mod 2^16` (spec/46_timers_keys.md R284). -/
def State.rewind (s : State) : State := s.setPc (s.pc - 2#16)

/-- A skip after the default advance: a further +2 when the condition holds (R160). -/
def State.skipIf (s : State) (c : Bool) : State := if c then s.advance else s

/-! ## Memory (spec/20_memory.md) -/

/-- The number of byte addresses (R50). -/
def memorySize : Nat := 0x1000

/-- The first address a data write may go to (R51, R53). -/
def firstWritable : Nat := 0x200

/-- The byte an address holds. -/
def Memory.read : Memory → Nat → Byte
  | [], _ => Memory.unlisted
  | (b, u) :: rest, a => if a = b then u else Memory.read rest a

/-- Put an entry in front of the entries above it, but none that says what an unlisted address reads as anyway. -/
def Memory.cons (a : Nat) (v : Byte) (rest : Memory) : Memory :=
  if v = Memory.unlisted then rest else (a, v) :: rest

/-- The memory in which address `a` holds `v`, in the same canonical form. -/
def Memory.write : Memory → Nat → Byte → Memory
  | [], a, v => Memory.cons a v []
  | (b, u) :: rest, a, v =>
    if a < b then Memory.cons a v ((b, u) :: rest)
    else if a = b then Memory.cons a v rest
    else (b, u) :: Memory.write rest a v

/-- Canonical from address `low` on: addresses strictly rising, inside the memory, no entry that says what an unlisted
address reads as. -/
def Memory.wfFrom : Nat → Memory → Bool
  | _, [] => true
  | low, (a, v) :: rest => low ≤ a && a < memorySize && v ≠ Memory.unlisted && Memory.wfFrom (a + 1) rest

/-- The canonical form: equal memories are equal lists. -/
def Memory.wf (m : Memory) : Bool := Memory.wfFrom 0 m

/-- The byte of memory at an address, as a state shows it. -/
def State.readByte (s : State) (a : Nat) : Byte := Memory.read s.mem a

/-- `check MemRead(a)` (R54): the fault it raises, if any. -/
def checkRead (a : Nat) : Option Raise :=
  if a ≥ memorySize then some ⟨.memOutOfRange, BitVec.ofNat 16 a⟩ else none

/-- `check MemWrite(a)` (R55): the fault it raises, if any. -/
def checkWrite (a : Nat) : Option Raise :=
  if a ≥ memorySize then some ⟨.memOutOfRange, BitVec.ofNat 16 a⟩
  else if a < firstWritable then some ⟨.reservedWrite, BitVec.ofNat 16 a⟩
  else none

/-- The checks of an access of `n` bytes from `base`: the fault of the lowest address that has one (R59). -/
def firstRaise (check : Nat → Option Raise) : Nat → Nat → Option Raise
  | _, 0 => none
  | base, n + 1 =>
    match check base with
    | some r => some r
    | none => firstRaise check (base + 1) n

/-- `n` bytes from `base`, lowest address first. -/
def Memory.readBytes (m : Memory) : Nat → Nat → List Byte
  | _, 0 => []
  | base, n + 1 => Memory.read m base :: Memory.readBytes m (base + 1) n

/-- The memory with the bytes of a list from `base` on, lowest address first. -/
def Memory.writeBytes : Memory → Nat → List Byte → Memory
  | m, _, [] => m
  | m, base, b :: bs => Memory.writeBytes (Memory.write m base b) (base + 1) bs

/-- A read of `n` bytes, all or nothing (R59). -/
def readChecked (m : Memory) (base n : Nat) : Except Raise (List Byte) :=
  match firstRaise checkRead base n with
  | some r => .error r
  | none => .ok (Memory.readBytes m base n)

/-- A write of the bytes of a list, all or nothing (R59). -/
def writeChecked (m : Memory) (base : Nat) (bs : List Byte) : Except Raise Memory :=
  match firstRaise checkWrite base bs.length with
  | some r => .error r
  | none => .ok (Memory.writeBytes m base bs)

/-- `MemRead(a, 1)` (R54). -/
def memRead (m : Memory) (a : Nat) : Except Raise Byte :=
  match checkRead a with
  | some r => .error r
  | none => .ok (Memory.read m a)

/-- `MemWrite(a, 1, v)` (R55). -/
def memWrite (m : Memory) (a : Nat) (v : Byte) : Except Raise Memory := writeChecked m a [v]

/-- `Fetch16(a)` (R56): two bytes, big-endian, the lower address first. -/
def fetch16 (m : Memory) (a : Nat) : Except Raise Word :=
  match memRead m a with
  | .error r => .error r
  | .ok hi =>
    match memRead m (a + 1) with
    | .error r => .error r
    | .ok lo => .ok (wordOfBytes hi lo)

/-! ## The call stack (spec/10_state.md R27 to R29) -/

/-- `Push(v)`: the stack after it, or STACK_OVERFLOW when it holds `STACK_LIMIT` entries already (R27). -/
def push (config : Config) (stack : List Word) (v : Word) : Except Raise (List Word) :=
  if config.stackLimit = some stack.length then .error ⟨.stackOverflow, 0#16⟩ else .ok (v :: stack)

/-- `Pop()`: the popped value and the stack after it, or STACK_UNDERFLOW (R28). -/
def pop : List Word → Except Raise (Word × List Word)
  | [] => .error ⟨.stackUnderflow, 0#16⟩
  | v :: rest => .ok (v, rest)

/-! ## Keys (R32) -/

/-- Key `k` is down. There are 16 keys; no other number is down. -/
def State.keyDown (s : State) (k : Nat) : Bool := if h : k < 16 then s.key[k] else false

/-- The least `k` in `from` on, of `n` keys, that is down (R284: "scan order 0..15"). -/
def State.firstKeyFrom (s : State) : Nat → Nat → Option Nat
  | _, 0 => none
  | k, n + 1 => if s.keyDown k then some k else s.firstKeyFrom (k + 1) n

/-- The lowest-numbered key that is down. -/
def State.firstKeyDown (s : State) : Option Nat := s.firstKeyFrom 0 16

/-! ## The framebuffer (spec/45_display.md) -/

/-- The pixel at column `x`, row `y`; outside the 64 x 32 grid there is none, and the answer is off. -/
def Framebuffer.pixel (f : Framebuffer) (x y : Nat) : Bool :=
  if h : x < 64 ∧ y < 32 then (f[y]'h.2)[x]'h.1 else false

/-- The framebuffer with one pixel of the grid set to a value. -/
def Framebuffer.setPixel (f : Framebuffer) (x y : Nat) (b : Bool) : Framebuffer :=
  if h : x < 64 ∧ y < 32 then f.set y ((f[y]'h.2).set x b h.1) h.2 else f

/-- The framebuffer with every pixel off (R251). -/
def Framebuffer.clear : Framebuffer := Vector.replicate 32 (Vector.replicate 64 false)

/-- A framebuffer and the collision flag so far: what the blit carries along. -/
abbrev Canvas := Framebuffer × Bool

/-- One bit of a sprite at its target pixel (R253, R254): XOR, a collision when it turns an on pixel off, and neither
outside the grid (R255). -/
def blitBit (px py : Nat) (bit : Bool) (c : Canvas) : Canvas :=
  if px < 64 ∧ py < 32 then
    (Framebuffer.setPixel c.1 px py (Framebuffer.pixel c.1 px py ^^ bit), c.2 || (bit && Framebuffer.pixel c.1 px py))
  else c

/-- One row of a sprite, `j` the number of its bits still to do: bit 7 is leftmost, at column `x0` (R253). -/
def blitRow (x0 py : Nat) (row : Byte) : Nat → Canvas → Canvas
  | 0, c => c
  | j + 1, c => blitRow x0 py row j (blitBit (x0 + (7 - j)) py (row.getLsbD j) c)

/-- The rows of a sprite from row `py` down (R253). -/
def blitRows (x0 : Nat) : Nat → List Byte → Canvas → Canvas
  | _, [], c => c
  | py, row :: rows, c => blitRows x0 (py + 1) rows (blitRow x0 py row 8 c)

/-- `Blit(rows, vx, vy)` (R253): the anchor is reduced once, the offsets are not. -/
def blit (rows : List Byte) (vx vy : Byte) (f : Framebuffer) : Canvas :=
  blitRows (vx.toNat % 64) (vy.toNat % 32) rows (f, false)

/-! ## Taking a fault (spec/40_cycle.md R116, spec/60_exceptions.md R302, R303)

The only exception entry of this hardware: no vector, no handler, no change of `pc`. There is no return instruction
(R300, R306); only the host's RESET leaves FAULTED (R304), in HostOps.lean. -/

/-- Enter FAULTED from the state at the start of the step: nothing but the record changes. -/
def enterFaulted (word : Word) (r : Raise) (s : State) : Outcome :=
  .next (s.setFault (some { cause := r.cause, pc := s.pc, word := word, info := r.info }))

/-- `raise Fault(cause, info)` in the step of an instruction; `s` is the state at its start. Its word is the word that was
fetched, since a word that decodes to `i` is `encode i` (log 9). -/
def raiseFault (i : Instr) (r : Raise) (s : State) : Outcome := enterFaulted (encode i) r s

/-- Status and record as the host reads them (R38): with no record every field reads 0. -/
def FaultCause.code : FaultCause → BitVec 3
  | .invalidOpcode => 1#3
  | .stackUnderflow => 2#3
  | .stackOverflow => 3#3
  | .memOutOfRange => 4#3
  | .reservedWrite => 5#3
  | .keyIndexOutOfRange => 6#3

/-- `status` (R20, R35): FAULTED exactly when there is a record. -/
def State.status (s : State) : Status := if s.fault.isSome then .faulted else .running

/-- `fault.cause` (R301): code 0 is NONE. -/
def State.faultCause (s : State) : BitVec 3 := (s.fault.map fun f => f.cause.code).getD 0#3
/-- `fault.pc` (R38). -/
def State.faultPc (s : State) : Word := (s.fault.map (·.pc)).getD 0#16
/-- `fault.word` (R38). -/
def State.faultWord (s : State) : Word := (s.fault.map (·.word)).getD 0#16
/-- `fault.info` (R38). -/
def State.faultInfo (s : State) : Word := (s.fault.map (·.info)).getD 0#16

end Sys2Proof.Machine
end

