-- ==== Sys2Proof/Machine/Operands.lean ====
section
/-! DEFINITION. The operand forms: zero-extended immediates and registers, the data address, the key number, the register
count of FX55 and FX65, and the decimal digits of FX33. -/

namespace Sys2Proof.Machine

/-- `zext_16(nnn)` (spec/30_encoding.md R83). -/
def addrOperand (nnn : Addr12) : Word := nnn.setWidth 16

/-- `zext_16(V[x])` (R221, R144). -/
def State.wideV (s : State) (x : Reg) : Word := (s.readV x).setWidth 16

/-- The address of the first byte of a data access, `I + 0` as a natural number (spec/44_index_memory.md R226). -/
def State.dataBase (s : State) : Nat := s.I.toNat

/-- How many registers V0 to Vx are: x + 1 (R84). -/
def registerCount (x : Reg) : Nat := x.toNat + 1

/-- Register number `k` of a list V0, V1, ...; `k` is at most 15 wherever it is used. -/
def regOfNat (k : Nat) : Reg := BitVec.ofNat 4 k

/-- `KeyIndex(v)` (spec/46_timers_keys.md R280): the key number, or KEY_INDEX_OUT_OF_RANGE with the value. -/
def keyIndex (v : Byte) : Except Raise Nat :=
  if v.toNat < 16 then .ok v.toNat else .error ⟨.keyIndexOutOfRange, v.setWidth 16⟩

/-- The three decimal digits of a byte, hundreds first (R223). -/
def bcdDigits (v : Byte) : List Byte :=
  [BitVec.ofNat 8 (v.toNat / 100), BitVec.ofNat 8 (v.toNat / 10 % 10), BitVec.ofNat 8 (v.toNat % 10)]

/-- The values of `n` registers from number `k` on, the bytes FX55 stores (R224). -/
def State.registersFrom (s : State) : Nat → Nat → List Byte
  | _, 0 => []
  | k, n + 1 => s.readV (regOfNat k) :: s.registersFrom (k + 1) n

/-- The state with the bytes of a list put into the registers from number `k` on (R225). -/
def State.loadRegistersFrom (s : State) : Nat → List Byte → State
  | _, [] => s
  | k, b :: bs => (s.writeV (regOfNat k) b).loadRegistersFrom (k + 1) bs

end Sys2Proof.Machine
end

