-- ==== Sys2Proof/Machine/Alu.lean ====
section
/-! DEFINITION. Register arithmetic and logic (spec/43_alu.md). Operands and flags come from the state before any write;
the writes of Vx and VF stand in the order of R180, the later one remaining when x = 15. -/

namespace Sys2Proof.Machine

/-- Write the result to Vx, then the flag to VF: 8XY4, 8XY5, 8XY7 (R180). -/
def State.writeResultThenFlag (s : State) (x : Reg) (result flag : Byte) : State :=
  (s.writeV x result).writeV VF flag

/-- Write the flag to VF, then the result to Vx: 8XY6, 8XYE (R180). -/
def State.writeFlagThenResult (s : State) (x : Reg) (flag result : Byte) : State :=
  (s.writeV VF flag).writeV x result

/-- 6XNN (R181). -/
def execSetRegisterToValue (x : Reg) (nn : Byte) (s : State) : Outcome := .next (s.advance.writeV x nn)

/-- 7XNN: wraps, no flag (R182). -/
def execAddRegisterValue (x : Reg) (nn : Byte) (s : State) : Outcome :=
  .next (s.advance.writeV x (s.readV x + nn))

/-- 8XY0 (R183). -/
def execCopy (x y : Reg) (s : State) : Outcome := .next (s.advance.writeV x (s.readV y))

/-- 8XY1: VF is not written (R184). -/
def execOrRegisters (x y : Reg) (s : State) : Outcome := .next (s.advance.writeV x (s.readV x ||| s.readV y))

/-- 8XY2: VF is not written (R185). -/
def execAndRegisters (x y : Reg) (s : State) : Outcome := .next (s.advance.writeV x (s.readV x &&& s.readV y))

/-- 8XY3: VF is not written (R186). -/
def execXorRegisters (x y : Reg) (s : State) : Outcome := .next (s.advance.writeV x (s.readV x ^^^ s.readV y))

/-- 8XY4 (R187). -/
def execAddRegisters (x y : Reg) (s : State) : Outcome :=
  .next (s.advance.writeResultThenFlag x (s.readV x + s.readV y) (carryFlag (s.readV x) (s.readV y)))

/-- 8XY5 (R188). -/
def execSubRegisters (x y : Reg) (s : State) : Outcome :=
  .next (s.advance.writeResultThenFlag x (s.readV x - s.readV y) (noBorrowFlag (s.readV x) (s.readV y)))

/-- 8XY6: Vy is not read (R189). -/
def execShiftRight (x _y : Reg) (s : State) : Outcome :=
  .next (s.advance.writeFlagThenResult x (lowBitFlag (s.readV x)) (s.readV x >>> 1))

/-- 8XY7 (R190). -/
def execReverseSub (x y : Reg) (s : State) : Outcome :=
  .next (s.advance.writeResultThenFlag x (s.readV y - s.readV x) (noBorrowFlag (s.readV y) (s.readV x)))

/-- 8XYE: Vy is not read (R191). -/
def execShiftLeft (x _y : Reg) (s : State) : Outcome :=
  .next (s.advance.writeFlagThenResult x (highBitFlag (s.readV x)) (s.readV x <<< 1))

/-- CXNN with the random byte it draws (R192). The draw is counted, so that the next one is another free value (log 3). -/
def execRandomWith (rand : Byte) (x : Reg) (nn : Byte) (s : State) : Outcome :=
  .next ((s.advance.writeV x (rand &&& nn)).countDraw)

/-- CXNN: the random byte is the free value of this draw (R192, R316). -/
def execRandom (x : Reg) (nn : Byte) (s : State) : Outcome := execRandomWith (Config.randIn s.randCount) x nn s

end Sys2Proof.Machine
end

