-- ==== Sys2Proof/Machine/Control.lean ====
section
/-! DEFINITION. Control transfer (spec/41_control.md). The argument `s` of a meaning is the state at the start of the step,
`pc` = A; the meaning does the default advance itself, so that `s.advance.pc` is the `pc` the spec's pseudocode reads. -/

namespace Sys2Proof.Machine

/-- 0NNN: nothing but the default advance, whatever `nnn` is (R140). -/
def execCallMachineRoutine (_nnn : Addr12) (s : State) : Outcome := .next s.advance

/-- 00EE: `pc <- Pop()` (R141). -/
def execReturnSubroutine (s : State) : Outcome :=
  match pop s.stack with
  | .error r => raiseFault .returnSubroutine r s
  | .ok (target, rest) => .next ((s.advance.setStack rest).setPc target)

/-- 1NNN: `pc <- nnn` (R142). -/
def execJump (nnn : Addr12) (s : State) : Outcome := .next (s.advance.setPc (addrOperand nnn))

/-- 2NNN: push A + 2, then `pc <- nnn` (R143). -/
def execCallSubroutine (nnn : Addr12) (s : State) : Outcome :=
  match push s.config s.stack s.advance.pc with
  | .error r => raiseFault (.callSubroutine nnn) r s
  | .ok st => .next ((s.advance.setStack st).setPc (addrOperand nnn))

/-- BNNN: `pc <- nnn + V0`, not truncated to 12 bits (R144). -/
def execJumpPlus (nnn : Addr12) (s : State) : Outcome :=
  .next (s.advance.setPc (addrOperand nnn + s.wideV V0))

end Sys2Proof.Machine
end

