-- ==== Sys2Proof/Machine/Display.lean ====
section
/-! DEFINITION. The display instructions (spec/45_display.md). -/

namespace Sys2Proof.Machine

/-- 00E0: every pixel off, VF not written (R251). -/
def execClearScreen (s : State) : Outcome := .next (s.advance.setFb Framebuffer.clear)

/-- DXYN (R252): the rows are read, and the whole access checked, before any pixel changes; the coordinates are the
values before VF is written. -/
def execDraw (x y : Reg) (n : Nibble) (s : State) : Outcome :=
  match readChecked s.mem s.dataBase n.toNat with
  | .error r => raiseFault (.draw x y n) r s
  | .ok rows =>
    let c := blit rows (s.readV x) (s.readV y) s.fb
    .next ((s.advance.setFb c.1).writeV VF (collisionFlag c.2))

end Sys2Proof.Machine
end

