-- ==== Sys2Proof/Machine/IndexMemory.lean ====
section
/-! DEFINITION. Index register and memory transfer (spec/44_index_memory.md). A memory access is checked whole before
anything is written, and `I` is never changed by one (R226, spec/20_memory.md R59). -/

namespace Sys2Proof.Machine

/-- ANNN (R220). -/
def execSetIndex (nnn : Addr12) (s : State) : Outcome := .next (s.advance.setI (addrOperand nnn))

/-- FX1E: modulo 2^16, no flag, no range check (R221). -/
def execAddToIndex (x : Reg) (s : State) : Outcome := .next (s.advance.setI (s.I + s.wideV x))

/-- FX29: nothing but the default advance; there is no font (R222). -/
def execSetIndexToSpriteChar (_x : Reg) (s : State) : Outcome := .next s.advance

/-- FX33 (R223). -/
def execStoreBCD (x : Reg) (s : State) : Outcome :=
  match writeChecked s.mem s.dataBase (bcdDigits (s.readV x)) with
  | .error r => raiseFault (.storeBCD x) r s
  | .ok m => .next (s.advance.setMem m)

/-- FX55 (R224). -/
def execDumpRegisters (x : Reg) (s : State) : Outcome :=
  match writeChecked s.mem s.dataBase (s.registersFrom 0 (registerCount x)) with
  | .error r => raiseFault (.dumpRegisters x) r s
  | .ok m => .next (s.advance.setMem m)

/-- FX65 (R225). -/
def execLoadRegisters (x : Reg) (s : State) : Outcome :=
  match readChecked s.mem s.dataBase (registerCount x) with
  | .error r => raiseFault (.loadRegisters x) r s
  | .ok bs => .next (s.advance.loadRegistersFrom 0 bs)

end Sys2Proof.Machine
end

