-- ==== Sys2Proof/Machine/KeysTimers.lean ====
section
/-! DEFINITION. Keys and timers (spec/46_timers_keys.md). -/

namespace Sys2Proof.Machine

/-- EX9E (R281). -/
def execSkipIfKeyPressed (x : Reg) (s : State) : Outcome :=
  match keyIndex (s.readV x) with
  | .error r => raiseFault (.skipIfKeyPressed x) r s
  | .ok k => .next (s.advance.skipIf (s.keyDown k))

/-- EXA1 (R282). -/
def execSkipIfKeyNotPressed (x : Reg) (s : State) : Outcome :=
  match keyIndex (s.readV x) with
  | .error r => raiseFault (.skipIfKeyNotPressed x) r s
  | .ok k => .next (s.advance.skipIf (!s.keyDown k))

/-- FX07 (R283). -/
def execGetDelay (x : Reg) (s : State) : Outcome := .next (s.advance.writeV x s.DT)

/-- FX0A: back to A when no key is down, else the lowest key that is (R284). -/
def execGetKeyBlocking (x : Reg) (s : State) : Outcome :=
  match s.firstKeyDown with
  | none => .next s.advance.rewind
  | some k => .next (s.advance.writeV x (BitVec.ofNat 8 k))

/-- FX15 (R285). -/
def execSetDelay (x : Reg) (s : State) : Outcome := .next (s.advance.setDT (s.readV x))

/-- FX18 (R286). -/
def execSetSound (x : Reg) (s : State) : Outcome := .next (s.advance.setST (s.readV x))

end Sys2Proof.Machine
end

