-- ==== Sys2Proof/Machine/Skip.lean ====
section
/-! DEFINITION. The conditional skips on registers (spec/42_skip.md): after the default advance a further +2 when the
condition holds; nothing but `pc` changes (R160). -/

namespace Sys2Proof.Machine

/-- 3XNN (R161). -/
def execSkipIfEqValue (x : Reg) (nn : Byte) (s : State) : Outcome :=
  .next (s.advance.skipIf (s.readV x = nn))

/-- 4XNN (R162). -/
def execSkipIfNotEqValue (x : Reg) (nn : Byte) (s : State) : Outcome :=
  .next (s.advance.skipIf (s.readV x ≠ nn))

/-- 5XY0 (R163). -/
def execSkipIfEqRegister (x y : Reg) (s : State) : Outcome :=
  .next (s.advance.skipIf (s.readV x = s.readV y))

/-- 9XY0 (R164). -/
def execSkipIfNotEqRegister (x y : Reg) (s : State) : Outcome :=
  .next (s.advance.skipIf (s.readV x ≠ s.readV y))

end Sys2Proof.Machine
end

