-- ==== Sys2Proof/Machine/Dispatch.lean ====
section
/-! DEFINITION. The meaning of every instruction, one arm per constructor in the opcode table's order. The state is that
at the start of the step, `pc` = A. -/

namespace Sys2Proof.Machine

def exec (i : Instr) (s : State) : Host.Outcome State Fault Refusal :=
  match i with
  | .callMachineRoutine nnn => Sys2Proof.Machine.execCallMachineRoutine nnn s
  | .clearScreen => Sys2Proof.Machine.execClearScreen s
  | .returnSubroutine => Sys2Proof.Machine.execReturnSubroutine s
  | .jump nnn => Sys2Proof.Machine.execJump nnn s
  | .callSubroutine nnn => Sys2Proof.Machine.execCallSubroutine nnn s
  | .skipIfEqValue x nn => Sys2Proof.Machine.execSkipIfEqValue x nn s
  | .skipIfNotEqValue x nn => Sys2Proof.Machine.execSkipIfNotEqValue x nn s
  | .skipIfEqRegister x y => Sys2Proof.Machine.execSkipIfEqRegister x y s
  | .setRegisterToValue x nn => Sys2Proof.Machine.execSetRegisterToValue x nn s
  | .addRegisterValue x nn => Sys2Proof.Machine.execAddRegisterValue x nn s
  | .copy x y => Sys2Proof.Machine.execCopy x y s
  | .orRegisters x y => Sys2Proof.Machine.execOrRegisters x y s
  | .andRegisters x y => Sys2Proof.Machine.execAndRegisters x y s
  | .xorRegisters x y => Sys2Proof.Machine.execXorRegisters x y s
  | .addRegisters x y => Sys2Proof.Machine.execAddRegisters x y s
  | .subRegisters x y => Sys2Proof.Machine.execSubRegisters x y s
  | .shiftRight x y => Sys2Proof.Machine.execShiftRight x y s
  | .reverseSub x y => Sys2Proof.Machine.execReverseSub x y s
  | .shiftLeft x y => Sys2Proof.Machine.execShiftLeft x y s
  | .skipIfNotEqRegister x y => Sys2Proof.Machine.execSkipIfNotEqRegister x y s
  | .setIndex nnn => Sys2Proof.Machine.execSetIndex nnn s
  | .jumpPlus nnn => Sys2Proof.Machine.execJumpPlus nnn s
  | .random x nn => Sys2Proof.Machine.execRandom x nn s
  | .draw x y n => Sys2Proof.Machine.execDraw x y n s
  | .skipIfKeyPressed x => Sys2Proof.Machine.execSkipIfKeyPressed x s
  | .skipIfKeyNotPressed x => Sys2Proof.Machine.execSkipIfKeyNotPressed x s
  | .getDelay x => Sys2Proof.Machine.execGetDelay x s
  | .getKeyBlocking x => Sys2Proof.Machine.execGetKeyBlocking x s
  | .setDelay x => Sys2Proof.Machine.execSetDelay x s
  | .setSound x => Sys2Proof.Machine.execSetSound x s
  | .addToIndex x => Sys2Proof.Machine.execAddToIndex x s
  | .setIndexToSpriteChar x => Sys2Proof.Machine.execSetIndexToSpriteChar x s
  | .storeBCD x => Sys2Proof.Machine.execStoreBCD x s
  | .dumpRegisters x => Sys2Proof.Machine.execDumpRegisters x s
  | .loadRegisters x => Sys2Proof.Machine.execLoadRegisters x s

end Sys2Proof.Machine
end

