-- ==== Sys2Proof/Machine/Fetch.lean ====
section
/-! DEFINITION. The fetch and decode part of a step (spec/40_cycle.md R111), and storing a word where the next step fetches. -/

namespace Sys2Proof.Machine

/-- A step that executes the decoded instruction with `run` (R111, R113, R116, R121): nothing in FAULTED; a fetch fault
records word 0; a word that is no instruction raises INVALID_OPCODE with the word. -/
def stepBy (run : Instr → State → Outcome) (s : State) : Outcome :=
  match s.fault with
  | some _ => .next s
  | none =>
    match fetch16 s.mem s.pc.toNat with
    | .error r => enterFaulted 0#16 r s
    | .ok w =>
      match decodeWord w with
      | .error _ => enterFaulted w ⟨.invalidOpcode, 0#16⟩ s
      | .ok i => run i s

/-- The instruction a step at this state fetches and decodes, if there is one. -/
def State.nextInstr (s : State) : Option Instr :=
  match fetch16 s.mem s.pc.toNat with
  | .error _ => none
  | .ok w => (decodeWord w).toOption

/-- What a fetch at this state needs: RUNNING, and a `pc` whose two bytes are in memory (else the load address). -/
def State.readyToFetch (s : State) : State :=
  (s.setFault none).setPc (if s.pc.toNat + 1 < memorySize then s.pc else BitVec.ofNat 16 loadAddress)

/-- The state with a word stored big-endian at `pc`, ready to be fetched. -/
def State.storeAtPc (s : State) (w : Word) : State :=
  s.readyToFetch.setMem
    (Memory.writeBytes s.mem s.readyToFetch.pc.toNat [highByte w, lowByte w])

end Sys2Proof.Machine
end

