-- ==== Sys2Proof/Machine/Step.lean ====
section
/-! DEFINITION. One STEP of the machine (spec/40_cycle.md R110, R111). -/

namespace Sys2Proof.Machine

/-- One STEP: fetch, decode, execute; the random byte of a CXNN is the free value of its draw (log 3). -/
def step (s : State) : Host.Outcome State Fault Refusal := stepBy exec s

/-- The state with a word of the host's table stored where `step` fetches its next instruction (log 8). -/
def State.withFetchWord (s : State) (nbits w : Nat) : State := s.storeAtPc (tableWord nbits w)

end Sys2Proof.Machine
end

