-- ==== Sys2Proof/Machine/HostOps.lean ====
section
/-! DEFINITION. The host's five operations (spec/60_exceptions.md R309), each atomic, in any order, and what each answers. -/

namespace Sys2Proof.Machine

/-- The host's operations and their inputs (R309). -/
inductive HostOp where
  /-- RESET with a program image. -/
  | reset (image : List Byte)
  /-- STEP with its random byte. -/
  | step (randIn : Byte)
  /-- TICK. -/
  | tick
  /-- SET_KEYS; bit k is key k, set when down. -/
  | setKeys (keysIn : BitVec 16)
  /-- READ. -/
  | read
  deriving DecidableEq, Repr

/-- The result of a STEP (spec/40_cycle.md R120). -/
inductive StepResult where
  | executed
  | waiting
  | fault (record : FaultRecord)
  deriving DecidableEq, Repr

/-- What READ returns (R314): framebuffer, SOUND timer, status and the fields of the fault record. -/
structure Observation where
  fb : Framebuffer
  ST : Byte
  status : Status
  faultCause : BitVec 3
  faultPc : Word
  faultWord : Word
  faultInfo : Word
  deriving DecidableEq, Repr

/-- What an operation answers to the host. -/
inductive Reply where
  | done
  | stepped (result : StepResult)
  | observed (o : Observation)
  deriving DecidableEq, Repr

/-! ## STEP with its input -/

/-- `Execute(ins)` with the step's random byte: CXNN takes it, every other instruction ignores it (R316). -/
def execWith (randIn : Byte) (i : Instr) (s : State) : Outcome :=
  match i with
  | .random x nn => execRandomWith randIn x nn s
  | i => exec i s

/-- STEP(rand_in), the spec's step as a function of its input (spec/40_cycle.md R111, R124). -/
def stepWith (randIn : Byte) (s : State) : Outcome := stepBy (execWith randIn) s

/-- The next instruction is FX0A and no key is down (spec/46_timers_keys.md R284). -/
def State.waits (s : State) : Bool :=
  match s.nextInstr with
  | some (.getKeyBlocking _) => s.firstKeyDown.isNone
  | _ => false

/-- The result of a STEP from `s` that left `t` (R120, R121): FAULT with the record that is held, else WAITING or
EXECUTED. -/
def stepResult (s t : State) : StepResult :=
  match t.fault with
  | some f => .fault f
  | none => if s.waits then .waiting else .executed

/-! ## RESET, TICK, SET_KEYS, READ -/

/-- The longest program image (spec/70_reset_and_hazards.md R352). -/
def maxImageLength : Nat := memorySize - loadAddress

/-- The state of spec/10_state.md R39 for a program image (R350). The random bytes go on where they were (log 3). -/
def State.resetTo (s : State) (image : List Byte) : State :=
  (State.cleared s.config s.randCount).setMem (Memory.writeBytes [] loadAddress image)

/-- One timer toward zero, never below (R312). -/
def timerDown (t : Byte) : Byte := if t = 0#8 then 0#8 else t - 1#8

/-- TICK (R312): both timers, whatever the status is. -/
def State.tick (s : State) : State := (s.setDT (timerDown s.DT)).setST (timerDown s.ST)

/-- SET_KEYS (R313): `key[k] <- keys_in[k]`. -/
def State.setKeys (s : State) (keysIn : BitVec 16) : State :=
  s.setKey #v[keysIn.getLsbD 0, keysIn.getLsbD 1, keysIn.getLsbD 2, keysIn.getLsbD 3,
    keysIn.getLsbD 4, keysIn.getLsbD 5, keysIn.getLsbD 6, keysIn.getLsbD 7,
    keysIn.getLsbD 8, keysIn.getLsbD 9, keysIn.getLsbD 10, keysIn.getLsbD 11,
    keysIn.getLsbD 12, keysIn.getLsbD 13, keysIn.getLsbD 14, keysIn.getLsbD 15]

/-- READ (R314). -/
def State.observe (s : State) : Observation where
  fb := s.fb
  ST := s.ST
  status := s.status
  faultCause := s.faultCause
  faultPc := s.faultPc
  faultWord := s.faultWord
  faultInfo := s.faultInfo

/-! ## The five operations -/

/-- The effect of a host operation (R309). -/
def hostStep (op : HostOp) (s : State) : Outcome :=
  match op with
  | .reset image => if image.length ≤ maxImageLength then .next (s.resetTo image) else .refused .imageTooLong
  | .step randIn => stepWith randIn s
  | .tick => .next s.tick
  | .setKeys keysIn => .next (s.setKeys keysIn)
  | .read => .next s

/-- What a host operation from `s` that left `t` answers (R309, R314, R120). -/
def hostReply (op : HostOp) (s t : State) : Reply :=
  match op with
  | .reset _ => .done
  | .step _ => .stepped (stepResult s t)
  | .tick => .done
  | .setKeys _ => .done
  | .read => .observed s.observe

/-- A sequence of host operations (R323), stopping at the first that is refused. -/
def hostRun : List HostOp → State → Outcome
  | [], s => .next s
  | op :: ops, s =>
    match hostStep op s with
    | .next t => hostRun ops t
    | .fault r => .fault r
    | .refused r => .refused r

end Sys2Proof.Machine
end

