-- ==== Sys2Proof/Safety.lean ====
section
/-! DEFINITION. The terms in which claims about the machine are stated: what an instruction may change, the invariant of
every state, and the states the host's operations can reach. -/

namespace Sys2Proof.Safety

open Sys2Proof.Machine

/-! ## Frames (spec/40_cycle.md R115) -/

/-- The components of the state, the model's own two at the end. -/
inductive Component where
  | memory | registers | index | pc | stack | delay | sound | keys | framebuffer | fault | config | draws
  deriving DecidableEq, Repr

/-- A component holds in `t` what it holds in `s`, as it can be read: every byte, register, key and pixel. -/
def Same : Component → State → State → Prop
  | .memory, s, t => ∀ a, t.readByte a = s.readByte a
  | .registers, s, t => ∀ r, t.readV r = s.readV r
  | .index, s, t => t.I = s.I
  | .pc, s, t => t.pc = s.pc
  | .stack, s, t => t.stack = s.stack
  | .delay, s, t => t.DT = s.DT
  | .sound, s, t => t.ST = s.ST
  | .keys, s, t => ∀ k, t.keyDown k = s.keyDown k
  | .framebuffer, s, t => ∀ x y, Framebuffer.pixel t.fb x y = Framebuffer.pixel s.fb x y
  | .fault, s, t => t.fault = s.fault
  | .config, s, t => t.config = s.config
  | .draws, s, t => t.randCount = s.randCount

/-- Every component but those listed is unchanged. -/
def ChangesOnly (written : List Component) (s t : State) : Prop := ∀ c, c ∉ written → Same c s t

/-- Every register but those listed is unchanged. -/
def KeepsRegistersBut (written : List Reg) (s t : State) : Prop := ∀ r, r ∉ written → t.readV r = s.readV r

/-- Every word whose bits under `mask` are `fixed` decodes to the instruction `make` reads from its fields. -/
def EncodedAs (mask fixed : Word) (make : Word → Instr) : Prop :=
  ∀ w : Word, w &&& mask = fixed → decodeWord w = .ok (make w)

/-- The state at the start of a step, in FAULTED with the record of a fault (R116): nothing else is changed. -/
def faultedState (s : State) (cause : FaultCause) (word info : Word) : State :=
  { s with fault := some { cause := cause, pc := s.pc, word := word, info := info } }

/-! ## Sprites in closed form (spec/45_display.md R253 to R255) -/

/-- The sprite with the `n` rows `row 0`, `row 1`, ..., anchored at column `x0` and row `y0`, has a 1 bit for the pixel at
column `px`, row `py`: bit 7 of a row is leftmost, rows go down, and nothing but the anchor is reduced. -/
def spriteBit (row : Nat → Byte) (n x0 y0 px py : Nat) : Bool :=
  x0 ≤ px && px < x0 + 8 && y0 ≤ py && py < y0 + n && (row (py - y0)).getLsbD (7 - (px - x0))

/-- The rows DXYN draws: the bytes from the data address on. -/
def spriteRow (s : State) (k : Nat) : Byte := s.readByte (s.dataBase + k)

/-! ## Which instruction writes what (spec/10_state.md R23, R26 to R33) -/

/-- The table of R23, its column "writes": the instruction may write the register. -/
def WritesRegister : Instr → Reg → Prop
  | .setRegisterToValue x _, r | .addRegisterValue x _, r | .copy x _, r => r = x
  | .orRegisters x _, r | .andRegisters x _, r | .xorRegisters x _, r => r = x
  | .addRegisters x _, r | .subRegisters x _, r | .reverseSub x _, r => r = x ∨ r = VF
  | .shiftRight x _, r | .shiftLeft x _, r => r = x ∨ r = VF
  | .random x _, r | .getDelay x, r | .getKeyBlocking x, r => r = x
  | .draw _ _ _, r => r = VF
  | .loadRegisters x, r => r.toNat ≤ x.toNat
  | .callMachineRoutine _, _ | .clearScreen, _ | .returnSubroutine, _ | .jump _, _ | .callSubroutine _, _ => False
  | .skipIfEqValue _ _, _ | .skipIfNotEqValue _ _, _ | .skipIfEqRegister _ _, _ | .skipIfNotEqRegister _ _, _ => False
  | .setIndex _, _ | .jumpPlus _, _ | .skipIfKeyPressed _, _ | .skipIfKeyNotPressed _, _ => False
  | .setDelay _, _ | .setSound _, _ | .addToIndex _, _ | .setIndexToSpriteChar _, _ => False
  | .storeBCD _, _ | .dumpRegisters _, _ => False

/-- The table of R25: where an instruction that raised no fault, fetched at `s.pc`, leaves `pc`. -/
def LeavesPc : Instr → State → State → Prop
  | .jump nnn, _, t | .callSubroutine nnn, _, t => t.pc.toNat = nnn.toNat
  | .returnSubroutine, s, t => s.stack.head? = some t.pc
  | .jumpPlus nnn, s, t => t.pc.toNat = nnn.toNat + (s.readV 0#4).toNat
  | .skipIfEqValue x nn, s, t => t.pc = s.pc + if s.readV x = nn then 4#16 else 2#16
  | .skipIfNotEqValue x nn, s, t => t.pc = s.pc + if s.readV x ≠ nn then 4#16 else 2#16
  | .skipIfEqRegister x y, s, t => t.pc = s.pc + if s.readV x = s.readV y then 4#16 else 2#16
  | .skipIfNotEqRegister x y, s, t => t.pc = s.pc + if s.readV x ≠ s.readV y then 4#16 else 2#16
  | .skipIfKeyPressed x, s, t => t.pc = s.pc + if s.keyDown (s.readV x).toNat = true then 4#16 else 2#16
  | .skipIfKeyNotPressed x, s, t => t.pc = s.pc + if s.keyDown (s.readV x).toNat = true then 2#16 else 4#16
  | .getKeyBlocking _, s, t =>
    ((∃ k, s.keyDown k = true) → t.pc = s.pc + 2#16) ∧ ((∀ k, s.keyDown k = false) → t.pc = s.pc)
  | .callMachineRoutine _, s, t | .clearScreen, s, t | .setIndex _, s, t => t.pc = s.pc + 2#16
  | .setRegisterToValue _ _, s, t | .addRegisterValue _ _, s, t | .copy _ _, s, t => t.pc = s.pc + 2#16
  | .orRegisters _ _, s, t | .andRegisters _ _, s, t | .xorRegisters _ _, s, t => t.pc = s.pc + 2#16
  | .addRegisters _ _, s, t | .subRegisters _ _, s, t | .reverseSub _ _, s, t => t.pc = s.pc + 2#16
  | .shiftRight _ _, s, t | .shiftLeft _ _, s, t | .random _ _, s, t | .draw _ _ _, s, t => t.pc = s.pc + 2#16
  | .getDelay _, s, t | .setDelay _, s, t | .setSound _, s, t | .addToIndex _, s, t => t.pc = s.pc + 2#16
  | .setIndexToSpriteChar _, s, t | .storeBCD _, s, t | .dumpRegisters _, s, t => t.pc = s.pc + 2#16
  | .loadRegisters _, s, t => t.pc = s.pc + 2#16

/-! ## The invariant -/

/-- The `info` and the `word` of a record fit its cause (spec/60_exceptions.md R301, R302). -/
def LegalRecord (f : FaultRecord) : Prop :=
  match f.cause with
  | .invalidOpcode => f.info = 0#16 ∧ (decodeWord f.word).toOption = none
  | .stackUnderflow => f.info = 0#16 ∧ f.word = 0x00EE#16
  | .stackOverflow => f.info = 0#16 ∧ aField f.word = 0x2#4
  | .memOutOfRange => 0x1000 ≤ f.info.toNat
  | .reservedWrite => f.info.toNat < 0x200 ∧ (∃ x, f.word = encode (.storeBCD x) ∨ f.word = encode (.dumpRegisters x))
  | .keyIndexOutOfRange => 16 ≤ f.info.toNat ∧ f.info.toNat < 256 ∧
      (∃ x, f.word = encode (.skipIfKeyPressed x) ∨ f.word = encode (.skipIfKeyNotPressed x))

/-- What holds in every state a run can reach. -/
structure Inv (s : State) : Prop where
  /-- Memory is in its canonical form, inside the 4096 addresses. -/
  memory : Memory.wf s.mem = true
  /-- `pc` is at most 0x10FE (spec/40_cycle.md R119). -/
  pc : s.pc.toNat ≤ 0x10FE
  /-- The stack holds only values 2NNN pushes, A + 2 with A at most 0xFFE (R119). -/
  entries : ∀ v ∈ s.stack, v.toNat ≤ 0x1000
  /-- The stack holds at most `STACK_LIMIT` entries (spec/10_state.md R38). -/
  depth : ∀ d, s.config.stackLimit = some d → s.stack.length ≤ d
  /-- A fault record is about the instruction `pc` stands at (R116), and legal. -/
  record : ∀ f, s.fault = some f → f.pc = s.pc ∧ LegalRecord f

/-! ## Runs of the host's operations (spec/60_exceptions.md R323) -/

/-- The state is the RESET state for an image that fits (spec/70_reset_and_hazards.md R351). -/
def CleanReset (image : List Byte) (s : State) : Prop :=
  image.length ≤ maxImageLength ∧ ∃ before : State, s = before.resetTo image

/-- The states that runs reach: a run begins with RESET, and then the host's operations come in any order. -/
inductive Reachable : State → Prop where
  | reset {image : List Byte} {s : State} : CleanReset image s → Reachable s
  | after {s t : State} {op : HostOp} : Reachable s → hostStep op s = .next t → Reachable t

end Sys2Proof.Safety
end

