-- ==== Sys2Proof/Certificates/Slice0/Obligations.lean ====
section
/-! DEFINITION. The statements about the machine, for the provers. The terms they are stated in (`ChangesOnly`,
`KeepsRegistersBut`, `EncodedAs`, `faultedState`, `spriteBit`, `Inv`, `Reachable`) are in Safety.lean.

Throughout, `s` is the state at the start of a step, so `s.pc` is the spec's A. "The spec's decision D<n>" is a row of
spec/92_eei_decisions.md: a choice of the spec's, not a statement of its source. -/

open Sys2Proof Sys2Proof.Machine Sys2Proof.Safety

/-! ## Encoding (spec/30_encoding.md) -/

/-- Words written out in the spec decode to the instructions it says (R97's examples, spec/95_test_vectors.md §2). -/
def Obligations.DecodesTheSpecsExampleWords : Prop :=
  decodeWord 0x00E0#16 = .ok .clearScreen ∧
  decodeWord 0x00EE#16 = .ok .returnSubroutine ∧
  decodeWord 0x00E1#16 = .ok (.callMachineRoutine 0x0E1#12) ∧
  decodeWord 0x5230#16 = .ok (.skipIfEqRegister 0x2#4 0x3#4) ∧
  decodeWord 0x8AB6#16 = .ok (.shiftRight 0xA#4 0xB#4) ∧
  decodeWord 0xB123#16 = .ok (.jumpPlus 0x123#12) ∧
  decodeWord 0xD011#16 = .ok (.draw 0x0#4 0x1#4 0x1#4) ∧
  decodeWord 0xE59E#16 = .ok (.skipIfKeyPressed 0x5#4) ∧
  decodeWord 0xFF65#16 = .ok (.loadRegisters 0xF#4) ∧
  (decodeWord 0x5231#16).toOption = none ∧
  (decodeWord 0x8008#16).toOption = none ∧
  (decodeWord 0xE5A2#16).toOption = none ∧
  (decodeWord 0xF01F#16).toOption = none

/-- Decoding the word of a well-formed instruction, or its bytes in front of any others, gives the instruction back, with
every operand. -/
def Obligations.DecodeOfEncodeIsTheInstruction : Prop :=
  ∀ i : Instr, i.wf = true →
    decodeWord (encode i) = .ok i ∧ ∀ rest : List Byte, decode (encodeBytes i ++ rest) = .ok (i, rest)

/-- A word that decodes decodes to a well-formed instruction whose word it is: no bit is dropped. -/
def Obligations.EncodeOfDecodeIsTheWord : Prop :=
  ∀ (w : Word) (i : Instr), decodeWord w = .ok i → encode i = w ∧ i.wf = true

/-- R92: the decoder's nested switch and the opcode map of masks and matches pick the same row for every word, or none. -/
def Obligations.DecodeFollowsTheOpcodeMap : Prop :=
  ∀ w : Word, (decodeWord w).toOption.map Instr.number = mapRow w

/-- R94's table: the words that are no instruction are exactly these. -/
def Obligations.InvalidWordsAreThoseOfTheTable : Prop :=
  ∀ w : Word, (decodeWord w).toOption = none ↔
    (aField w = 0x5#4 ∧ nField w ≠ 0x0#4) ∨
    (aField w = 0x8#4 ∧ nField w ∈ [0x8#4, 0x9#4, 0xA#4, 0xB#4, 0xC#4, 0xD#4, 0xF#4]) ∨
    (aField w = 0x9#4 ∧ nField w ≠ 0x0#4) ∨
    (aField w = 0xE#4 ∧ nnField w ∉ [0x9E#8, 0xA1#8]) ∨
    (aField w = 0xF#4 ∧
      nnField w ∉ [0x07#8, 0x0A#8, 0x15#8, 0x18#8, 0x1E#8, 0x29#8, 0x33#8, 0x55#8, 0x65#8])

/-! ## Control transfer (spec/41_control.md) -/

/-- R140: 0NNN, every word of family 0 but 0x00E0 and 0x00EE, does nothing but advance `pc`, whatever NNN is. -/
def Obligations.MachineRoutineOnlyAdvancesPc : Prop :=
  (∀ w : Word, w &&& 0xF000#16 = 0x0000#16 → w ≠ 0x00E0#16 → w ≠ 0x00EE#16 →
    decodeWord w = .ok (.callMachineRoutine (nnnField w))) ∧
  ∀ (nnn : Addr12) (s : State), ∃ t, exec (.callMachineRoutine nnn) s = .next t ∧
    t.pc = s.pc + 2#16 ∧ ChangesOnly [.pc] s t

/-- 00EE pops the top of the stack into `pc`; with an empty stack it raises STACK_UNDERFLOW (the spec's decision D4). -/
def Obligations.ReturnPopsTheStackIntoPc : Prop :=
  decodeWord 0x00EE#16 = .ok .returnSubroutine ∧
  (∀ (s : State) (top : Word) (rest : List Word), s.stack = top :: rest →
    ∃ t, exec .returnSubroutine s = .next t ∧
      t.pc = top ∧ t.stack = rest ∧ ChangesOnly [.pc, .stack] s t) ∧
  (∀ s : State, s.stack = [] →
    exec .returnSubroutine s = .next (faultedState s .stackUnderflow 0x00EE#16 0#16))

/-- R142: 1NNN sets `pc` to NNN and changes nothing else. -/
def Obligations.JumpSetsPc : Prop :=
  EncodedAs 0xF000#16 0x1000#16 (fun w => .jump (nnnField w)) ∧
  ∀ (nnn : Addr12) (s : State), ∃ t, exec (.jump nnn) s = .next t ∧
    t.pc.toNat = nnn.toNat ∧ ChangesOnly [.pc] s t

/-- 2NNN pushes A + 2 and sets `pc` to NNN; when the stack holds STACK_LIMIT entries it raises STACK_OVERFLOW (the spec's
decision D5; STACK_LIMIT is `s.config.stackLimit`, log 4). -/
def Obligations.CallPushesTheReturnAddress : Prop :=
  EncodedAs 0xF000#16 0x2000#16 (fun w => .callSubroutine (nnnField w)) ∧
  (∀ (nnn : Addr12) (s : State), s.config.stackLimit ≠ some s.stack.length →
    ∃ t, exec (.callSubroutine nnn) s = .next t ∧
      t.pc.toNat = nnn.toNat ∧ t.stack = (s.pc + 2#16) :: s.stack ∧ ChangesOnly [.pc, .stack] s t) ∧
  (∀ (nnn : Addr12) (s : State), s.config.stackLimit = some s.stack.length →
    exec (.callSubroutine nnn) s =
      .next (faultedState s .stackOverflow (encode (.callSubroutine nnn)) 0#16))

/-- BNNN sets `pc` to NNN + V0, always V0, kept in full (not cut to 12 bits: the spec's decision D6). -/
def Obligations.JumpPlusAddsV0 : Prop :=
  EncodedAs 0xF000#16 0xB000#16 (fun w => .jumpPlus (nnnField w)) ∧
  ∀ (nnn : Addr12) (s : State), ∃ t, exec (.jumpPlus nnn) s = .next t ∧
    t.pc.toNat = nnn.toNat + (s.readV 0#4).toNat ∧ ChangesOnly [.pc] s t

/-! ## Skips (spec/42_skip.md) -/

/-- R161, R162: 3XNN skips exactly when Vx = NN, 4XNN exactly when not; nothing but `pc` changes. -/
def Obligations.ImmediateSkipsTestVx : Prop :=
  EncodedAs 0xF000#16 0x3000#16 (fun w => .skipIfEqValue (xField w) (nnField w)) ∧
  EncodedAs 0xF000#16 0x4000#16 (fun w => .skipIfNotEqValue (xField w) (nnField w)) ∧
  ∀ (x : Reg) (nn : Byte) (s : State),
    (∃ t, exec (.skipIfEqValue x nn) s = .next t ∧
      t.pc = (if (s.readV x).toNat = nn.toNat then s.pc + 4#16 else s.pc + 2#16) ∧ ChangesOnly [.pc] s t) ∧
    (∃ t, exec (.skipIfNotEqValue x nn) s = .next t ∧
      t.pc = (if (s.readV x).toNat = nn.toNat then s.pc + 2#16 else s.pc + 4#16) ∧ ChangesOnly [.pc] s t)

/-- R163, R164: 5XY0 skips exactly when Vx = Vy, 9XY0 exactly when not; with another `n` the words are no instruction. -/
def Obligations.RegisterSkipsCompareVxVy : Prop :=
  EncodedAs 0xF00F#16 0x5000#16 (fun w => .skipIfEqRegister (xField w) (yField w)) ∧
  EncodedAs 0xF00F#16 0x9000#16 (fun w => .skipIfNotEqRegister (xField w) (yField w)) ∧
  (∀ w : Word, aField w = 0x5#4 ∨ aField w = 0x9#4 → nField w ≠ 0x0#4 → (decodeWord w).toOption = none) ∧
  ∀ (x y : Reg) (s : State),
    (∃ t, exec (.skipIfEqRegister x y) s = .next t ∧
      t.pc = (if (s.readV x).toNat = (s.readV y).toNat then s.pc + 4#16 else s.pc + 2#16) ∧ ChangesOnly [.pc] s t) ∧
    (∃ t, exec (.skipIfNotEqRegister x y) s = .next t ∧
      t.pc = (if (s.readV x).toNat = (s.readV y).toNat then s.pc + 2#16 else s.pc + 4#16) ∧ ChangesOnly [.pc] s t)

/-! ## Arithmetic and logic (spec/43_alu.md) -/

/-- R181: 6XNN puts NN into Vx. -/
def Obligations.SetRegisterWritesImmediate : Prop :=
  EncodedAs 0xF000#16 0x6000#16 (fun w => .setRegisterToValue (xField w) (nnField w)) ∧
  ∀ (x : Reg) (nn : Byte) (s : State), ∃ t, exec (.setRegisterToValue x nn) s = .next t ∧
    t.readV x = nn ∧ t.pc = s.pc + 2#16 ∧
    KeepsRegistersBut [x] s t ∧ ChangesOnly [.registers, .pc] s t

/-- R182: 7XNN adds NN to Vx modulo 256 and leaves VF alone. -/
def Obligations.AddImmediateWrapsWithoutFlag : Prop :=
  EncodedAs 0xF000#16 0x7000#16 (fun w => .addRegisterValue (xField w) (nnField w)) ∧
  ∀ (x : Reg) (nn : Byte) (s : State), ∃ t, exec (.addRegisterValue x nn) s = .next t ∧
    (t.readV x).toNat = ((s.readV x).toNat + nn.toNat) % 256 ∧ t.pc = s.pc + 2#16 ∧
    KeepsRegistersBut [x] s t ∧ ChangesOnly [.registers, .pc] s t

/-- R183: 8XY0 copies Vy to Vx. -/
def Obligations.CopyMovesVyToVx : Prop :=
  EncodedAs 0xF00F#16 0x8000#16 (fun w => .copy (xField w) (yField w)) ∧
  ∀ (x y : Reg) (s : State), ∃ t, exec (.copy x y) s = .next t ∧
    t.readV x = s.readV y ∧ t.pc = s.pc + 2#16 ∧
    KeepsRegistersBut [x] s t ∧ ChangesOnly [.registers, .pc] s t

/-- R184, R185, R186: 8XY1, 8XY2, 8XY3 put the bitwise or, and, exclusive or of Vx and Vy into Vx, and do not write VF. -/
def Obligations.LogicIsBitwiseWithoutFlag : Prop :=
  EncodedAs 0xF00F#16 0x8001#16 (fun w => .orRegisters (xField w) (yField w)) ∧
  EncodedAs 0xF00F#16 0x8002#16 (fun w => .andRegisters (xField w) (yField w)) ∧
  EncodedAs 0xF00F#16 0x8003#16 (fun w => .xorRegisters (xField w) (yField w)) ∧
  ∀ (x y : Reg) (s : State),
    (∃ t, exec (.orRegisters x y) s = .next t ∧
      (∀ k, (t.readV x).getLsbD k = ((s.readV x).getLsbD k || (s.readV y).getLsbD k)) ∧ t.pc = s.pc + 2#16 ∧
      KeepsRegistersBut [x] s t ∧ ChangesOnly [.registers, .pc] s t) ∧
    (∃ t, exec (.andRegisters x y) s = .next t ∧
      (∀ k, (t.readV x).getLsbD k = ((s.readV x).getLsbD k && (s.readV y).getLsbD k)) ∧ t.pc = s.pc + 2#16 ∧
      KeepsRegistersBut [x] s t ∧ ChangesOnly [.registers, .pc] s t) ∧
    (∃ t, exec (.xorRegisters x y) s = .next t ∧
      (∀ k, (t.readV x).getLsbD k = ((s.readV x).getLsbD k ^^ (s.readV y).getLsbD k)) ∧ t.pc = s.pc + 2#16 ∧
      KeepsRegistersBut [x] s t ∧ ChangesOnly [.registers, .pc] s t)

/-- 8XY4 adds modulo 256 and sets VF to the carry, both from the operands as they were. When x = 15 the later write, the
carry, remains (the order of the writes is the spec's decision D9). -/
def Obligations.AddRegistersSetsCarry : Prop :=
  EncodedAs 0xF00F#16 0x8004#16 (fun w => .addRegisters (xField w) (yField w)) ∧
  ∀ (x y : Reg) (s : State), ∃ t, exec (.addRegisters x y) s = .next t ∧
    (t.readV 15#4 = if (s.readV x).toNat + (s.readV y).toNat > 255 then 1#8 else 0#8) ∧
    (x ≠ 15#4 → (t.readV x).toNat = ((s.readV x).toNat + (s.readV y).toNat) % 256) ∧
    t.pc = s.pc + 2#16 ∧ KeepsRegistersBut [x, 15#4] s t ∧ ChangesOnly [.registers, .pc] s t

/-- 8XY5 and 8XY7 subtract modulo 256, Vx - Vy and Vy - Vx, and set VF to 1 exactly when there is no borrow. When x = 15
the later write, the flag, remains (the spec's decision D9). -/
def Obligations.SubtractionsSetNoBorrow : Prop :=
  EncodedAs 0xF00F#16 0x8005#16 (fun w => .subRegisters (xField w) (yField w)) ∧
  EncodedAs 0xF00F#16 0x8007#16 (fun w => .reverseSub (xField w) (yField w)) ∧
  ∀ (x y : Reg) (s : State),
    (∃ t, exec (.subRegisters x y) s = .next t ∧
      (t.readV 15#4 = if (s.readV x).toNat ≥ (s.readV y).toNat then 1#8 else 0#8) ∧
      (x ≠ 15#4 → ((t.readV x).toNat : Int) = ((s.readV x).toNat - (s.readV y).toNat : Int) % 256) ∧
      t.pc = s.pc + 2#16 ∧ KeepsRegistersBut [x, 15#4] s t ∧ ChangesOnly [.registers, .pc] s t) ∧
    (∃ t, exec (.reverseSub x y) s = .next t ∧
      (t.readV 15#4 = if (s.readV y).toNat ≥ (s.readV x).toNat then 1#8 else 0#8) ∧
      (x ≠ 15#4 → ((t.readV x).toNat : Int) = ((s.readV y).toNat - (s.readV x).toNat : Int) % 256) ∧
      t.pc = s.pc + 2#16 ∧ KeepsRegistersBut [x, 15#4] s t ∧ ChangesOnly [.registers, .pc] s t)

/-- 8XY6 and 8XYE shift Vx by one and set VF to the bit shifted out; Vy has no effect. When x = 15 the later write, the
shifted value, remains (the spec's decision D9). -/
def Obligations.ShiftsSetTheBitShiftedOut : Prop :=
  EncodedAs 0xF00F#16 0x8006#16 (fun w => .shiftRight (xField w) (yField w)) ∧
  EncodedAs 0xF00F#16 0x800E#16 (fun w => .shiftLeft (xField w) (yField w)) ∧
  ∀ (x y : Reg) (s : State),
    (∃ t, exec (.shiftRight x y) s = .next t ∧
      (t.readV x).toNat = (s.readV x).toNat / 2 ∧
      (x ≠ 15#4 → (t.readV 15#4).toNat = (s.readV x).toNat % 2) ∧
      t.pc = s.pc + 2#16 ∧ KeepsRegistersBut [x, 15#4] s t ∧ ChangesOnly [.registers, .pc] s t) ∧
    (∃ t, exec (.shiftLeft x y) s = .next t ∧
      (t.readV x).toNat = (s.readV x).toNat * 2 % 256 ∧
      (x ≠ 15#4 → (t.readV 15#4).toNat = (s.readV x).toNat / 128) ∧
      t.pc = s.pc + 2#16 ∧ KeepsRegistersBut [x, 15#4] s t ∧ ChangesOnly [.registers, .pc] s t)

/-- CXNN puts the random byte of its draw, masked with NN, into Vx, and the draw is counted, so that the next one is
another byte. The byte is the free value `Config.randIn` (the spec's decision D12; its form is the model's, log 3). -/
def Obligations.RandomMasksTheDrawnByte : Prop :=
  EncodedAs 0xF000#16 0xC000#16 (fun w => .random (xField w) (nnField w)) ∧
  ∀ (x : Reg) (nn : Byte) (s : State), ∃ t, exec (.random x nn) s = .next t ∧
    (∀ k, (t.readV x).getLsbD k = ((Config.randIn s.randCount).getLsbD k && nn.getLsbD k)) ∧
    t.randCount = s.randCount + 1 ∧ t.pc = s.pc + 2#16 ∧
    KeepsRegistersBut [x] s t ∧ ChangesOnly [.registers, .pc, .draws] s t

/-! ## Index register and memory transfer (spec/44_index_memory.md) -/

/-- R220: ANNN sets I to NNN. -/
def Obligations.SetIndexWritesAddress : Prop :=
  EncodedAs 0xF000#16 0xA000#16 (fun w => .setIndex (nnnField w)) ∧
  ∀ (nnn : Addr12) (s : State), ∃ t, exec (.setIndex nnn) s = .next t ∧
    t.I.toNat = nnn.toNat ∧ t.pc = s.pc + 2#16 ∧ ChangesOnly [.index, .pc] s t

/-- FX1E adds Vx to I modulo 2^16 (the wrap is the spec's decision D10) and writes no register. -/
def Obligations.AddToIndexWrapsAtSixteenBits : Prop :=
  EncodedAs 0xF0FF#16 0xF01E#16 (fun w => .addToIndex (xField w)) ∧
  ∀ (x : Reg) (s : State), ∃ t, exec (.addToIndex x) s = .next t ∧
    t.I.toNat = (s.I.toNat + (s.readV x).toNat) % 65536 ∧ t.pc = s.pc + 2#16 ∧
    ChangesOnly [.index, .pc] s t

/-- R222: FX29 changes nothing but `pc`: I is not set, there is no font. -/
def Obligations.SpriteCharOnlyAdvancesPc : Prop :=
  EncodedAs 0xF0FF#16 0xF029#16 (fun w => .setIndexToSpriteChar (xField w)) ∧
  ∀ (x : Reg) (s : State), ∃ t, exec (.setIndexToSpriteChar x) s = .next t ∧
    t.pc = s.pc + 2#16 ∧ ChangesOnly [.pc] s t

/-- FX33 stores the decimal digits of Vx at I, I + 1, I + 2, hundreds first, and leaves every other byte and I alone; an
access that begins below 0x200 or ends above 0xFFF faults at its lowest bad address and stores nothing (the faults are the
spec's decisions D6, D7, D25). -/
def Obligations.StoreBcdStoresThreeDigits : Prop :=
  EncodedAs 0xF0FF#16 0xF033#16 (fun w => .storeBCD (xField w)) ∧
  (∀ (x : Reg) (s : State), Memory.wf s.mem = true → 0x200 ≤ s.dataBase → s.dataBase + 3 ≤ 0x1000 →
    ∃ t, exec (.storeBCD x) s = .next t ∧
      (t.readByte s.dataBase).toNat = (s.readV x).toNat / 100 ∧
      (t.readByte (s.dataBase + 1)).toNat = (s.readV x).toNat / 10 % 10 ∧
      (t.readByte (s.dataBase + 2)).toNat = (s.readV x).toNat % 10 ∧
      (∀ a, a < s.dataBase ∨ s.dataBase + 3 ≤ a → t.readByte a = s.readByte a) ∧
      t.pc = s.pc + 2#16 ∧ ChangesOnly [.memory, .pc] s t) ∧
  (∀ (x : Reg) (s : State), s.dataBase < 0x200 →
    exec (.storeBCD x) s = .next (faultedState s .reservedWrite (encode (.storeBCD x)) s.I)) ∧
  (∀ (x : Reg) (s : State), 0x1000 < s.dataBase + 3 →
    exec (.storeBCD x) s = .next (faultedState s .memOutOfRange (encode (.storeBCD x))
      (if s.dataBase < 0x1000 then 0x1000#16 else s.I)))

/-- FX55 stores V0 to Vx from I on and leaves every other byte, the registers and I alone; its faults are as FX33's (the
spec's decisions D6, D7, D25). -/
def Obligations.DumpRegistersStoresV0ToVx : Prop :=
  EncodedAs 0xF0FF#16 0xF055#16 (fun w => .dumpRegisters (xField w)) ∧
  (∀ (x : Reg) (s : State), Memory.wf s.mem = true → 0x200 ≤ s.dataBase → s.dataBase + x.toNat < 0x1000 →
    ∃ t, exec (.dumpRegisters x) s = .next t ∧
      (∀ r : Reg, r.toNat ≤ x.toNat → t.readByte (s.dataBase + r.toNat) = s.readV r) ∧
      (∀ a, a < s.dataBase ∨ s.dataBase + x.toNat < a → t.readByte a = s.readByte a) ∧
      t.pc = s.pc + 2#16 ∧ ChangesOnly [.memory, .pc] s t) ∧
  (∀ (x : Reg) (s : State), s.dataBase < 0x200 →
    exec (.dumpRegisters x) s = .next (faultedState s .reservedWrite (encode (.dumpRegisters x)) s.I)) ∧
  (∀ (x : Reg) (s : State), 0x1000 ≤ s.dataBase + x.toNat →
    exec (.dumpRegisters x) s = .next (faultedState s .memOutOfRange (encode (.dumpRegisters x))
      (if s.dataBase < 0x1000 then 0x1000#16 else s.I)))

/-- FX65 loads V0 to Vx from the bytes at I on, with reads below 0x200 allowed, and leaves the registers above Vx, memory
and I alone; an access that ends above 0xFFF faults at its lowest bad address and loads nothing (the spec's decisions D6,
D7, D25). -/
def Obligations.LoadRegistersLoadsV0ToVx : Prop :=
  EncodedAs 0xF0FF#16 0xF065#16 (fun w => .loadRegisters (xField w)) ∧
  (∀ (x : Reg) (s : State), s.dataBase + x.toNat < 0x1000 →
    ∃ t, exec (.loadRegisters x) s = .next t ∧
      (∀ r : Reg, r.toNat ≤ x.toNat → t.readV r = s.readByte (s.dataBase + r.toNat)) ∧
      (∀ r : Reg, x.toNat < r.toNat → t.readV r = s.readV r) ∧
      t.pc = s.pc + 2#16 ∧ ChangesOnly [.registers, .pc] s t) ∧
  (∀ (x : Reg) (s : State), 0x1000 ≤ s.dataBase + x.toNat →
    exec (.loadRegisters x) s = .next (faultedState s .memOutOfRange (encode (.loadRegisters x))
      (if s.dataBase < 0x1000 then 0x1000#16 else s.I)))

/-! ## Display (spec/45_display.md) -/

/-- R251: 00E0 turns every pixel off and writes no register. -/
def Obligations.ClearScreenTurnsEveryPixelOff : Prop :=
  decodeWord 0x00E0#16 = .ok .clearScreen ∧
  ∀ s : State, ∃ t, exec .clearScreen s = .next t ∧
    (∀ x y, Framebuffer.pixel t.fb x y = false) ∧ t.pc = s.pc + 2#16 ∧ ChangesOnly [.framebuffer, .pc] s t

/-- R253, R254, R255: the blit turns over exactly the pixels of the grid under a 1 bit of the sprite, whose anchor is
reduced modulo 64 and 32 and whose rest is clipped, and reports a collision exactly when one of them was on. -/
def Obligations.BlitXorsTheClippedSprite : Prop :=
  ∀ (rows : List Byte) (vx vy : Byte) (f : Framebuffer),
    (∀ px py, px < 64 → py < 32 →
      Framebuffer.pixel (blit rows vx vy f).1 px py =
        (Framebuffer.pixel f px py ^^
          spriteBit (fun k => rows.getD k 0#8) rows.length (vx.toNat % 64) (vy.toNat % 32) px py)) ∧
    ((blit rows vx vy f).2 = true ↔ ∃ px py, px < 64 ∧ py < 32 ∧
      spriteBit (fun k => rows.getD k 0#8) rows.length (vx.toNat % 64) (vy.toNat % 32) px py = true ∧
      Framebuffer.pixel f px py = true)

/-- DXYN draws the n rows at I, at (Vx mod 64, Vy mod 32), by XOR, clipped, and sets VF to 1 when a pixel was turned off,
else 0; the coordinates are the values before VF is written. It faults when n > 0 and a row lies above 0xFFF, even one that
would be clipped, and changes no pixel then (the spec's decisions D6, D25). -/
def Obligations.DrawXorsTheSpriteAndSetsCollision : Prop :=
  EncodedAs 0xF000#16 0xD000#16 (fun w => .draw (xField w) (yField w) (nField w)) ∧
  (∀ (x y : Reg) (n : Nibble) (s : State), n = 0#4 ∨ s.dataBase + n.toNat ≤ 0x1000 →
    ∃ t, exec (.draw x y n) s = .next t ∧
      (∀ px py, px < 64 → py < 32 →
        Framebuffer.pixel t.fb px py = (Framebuffer.pixel s.fb px py ^^
          spriteBit (spriteRow s) n.toNat ((s.readV x).toNat % 64) ((s.readV y).toNat % 32) px py)) ∧
      ((∃ px py, px < 64 ∧ py < 32 ∧
          spriteBit (spriteRow s) n.toNat ((s.readV x).toNat % 64) ((s.readV y).toNat % 32) px py = true ∧
          Framebuffer.pixel s.fb px py = true) → t.readV 15#4 = 1#8) ∧
      ((∀ px py, px < 64 → py < 32 →
          spriteBit (spriteRow s) n.toNat ((s.readV x).toNat % 64) ((s.readV y).toNat % 32) px py = true →
          Framebuffer.pixel s.fb px py = false) → t.readV 15#4 = 0#8) ∧
      t.pc = s.pc + 2#16 ∧ KeepsRegistersBut [15#4] s t ∧ ChangesOnly [.framebuffer, .registers, .pc] s t) ∧
  (∀ (x y : Reg) (n : Nibble) (s : State), 0 < n.toNat → 0x1000 < s.dataBase + n.toNat →
    exec (.draw x y n) s = .next (faultedState s .memOutOfRange (encode (.draw x y n))
      (if s.dataBase < 0x1000 then 0x1000#16 else s.I)))

/-- Drawing the same sprite twice at the same place restores the framebuffer, and the second draw reports a collision exactly
when the first set a pixel (the property of spec/95_test_vectors.md L1-6). "The same place": the first draw's write of VF
has not changed a coordinate. -/
def Obligations.DrawingTwiceRestoresTheScreen : Prop :=
  ∀ (x y : Reg) (n : Nibble) (s t u : State), n = 0#4 ∨ s.dataBase + n.toNat ≤ 0x1000 →
    exec (.draw x y n) s = .next t → t.readV x = s.readV x → t.readV y = s.readV y →
    exec (.draw x y n) t = .next u →
    (∀ px py, Framebuffer.pixel u.fb px py = Framebuffer.pixel s.fb px py) ∧
    (u.readV 15#4 = 1#8 ↔ ∃ px py, px < 64 ∧ py < 32 ∧
      Framebuffer.pixel s.fb px py = false ∧ Framebuffer.pixel t.fb px py = true)

/-- After ClearScreen any draw that completes reports no collision and leaves exactly the sprite's own pixels on
(spec/95_test_vectors.md L1-7). -/
def Obligations.DrawOnAClearScreenNeverCollides : Prop :=
  ∀ (x y : Reg) (n : Nibble) (s t u : State), n = 0#4 ∨ s.dataBase + n.toNat ≤ 0x1000 →
    exec .clearScreen s = .next t → exec (.draw x y n) t = .next u →
    u.readV 15#4 = 0#8 ∧
    ∀ px py, px < 64 → py < 32 →
      Framebuffer.pixel u.fb px py =
        spriteBit (spriteRow s) n.toNat ((s.readV x).toNat % 64) ((s.readV y).toNat % 32) px py

/-! ## Keys and timers (spec/46_timers_keys.md) -/

/-- EX9E skips exactly when key Vx is down, EXA1 exactly when it is up; a key number above 15 raises
KEY_INDEX_OUT_OF_RANGE with the value (the spec's decision D8). -/
def Obligations.KeySkipsTestTheKey : Prop :=
  EncodedAs 0xF0FF#16 0xE09E#16 (fun w => .skipIfKeyPressed (xField w)) ∧
  EncodedAs 0xF0FF#16 0xE0A1#16 (fun w => .skipIfKeyNotPressed (xField w)) ∧
  (∀ (x : Reg) (s : State), (s.readV x).toNat < 16 →
    (∃ t, exec (.skipIfKeyPressed x) s = .next t ∧
      t.pc = (if s.keyDown (s.readV x).toNat = true then s.pc + 4#16 else s.pc + 2#16) ∧ ChangesOnly [.pc] s t) ∧
    (∃ t, exec (.skipIfKeyNotPressed x) s = .next t ∧
      t.pc = (if s.keyDown (s.readV x).toNat = true then s.pc + 2#16 else s.pc + 4#16) ∧ ChangesOnly [.pc] s t)) ∧
  (∀ (x : Reg) (s : State), 16 ≤ (s.readV x).toNat →
    exec (.skipIfKeyPressed x) s =
      .next (faultedState s .keyIndexOutOfRange (encode (.skipIfKeyPressed x)) ((s.readV x).setWidth 16)) ∧
    exec (.skipIfKeyNotPressed x) s =
      .next (faultedState s .keyIndexOutOfRange (encode (.skipIfKeyNotPressed x)) ((s.readV x).setWidth 16)))

/-- R283: FX07 puts DT into Vx and does not change DT. -/
def Obligations.GetDelayReadsTheTimer : Prop :=
  EncodedAs 0xF0FF#16 0xF007#16 (fun w => .getDelay (xField w)) ∧
  ∀ (x : Reg) (s : State), ∃ t, exec (.getDelay x) s = .next t ∧
    t.readV x = s.DT ∧ t.pc = s.pc + 2#16 ∧ KeepsRegistersBut [x] s t ∧ ChangesOnly [.registers, .pc] s t

/-- R284: FX0A puts the least number of a key that is down into Vx; with no key down the step changes nothing at all, `pc`
stays at A, and its result is WAITING. -/
def Obligations.GetKeyWaitsOrTakesTheLowestKey : Prop :=
  EncodedAs 0xF0FF#16 0xF00A#16 (fun w => .getKeyBlocking (xField w)) ∧
  (∀ (x : Reg) (s : State) (k : Nat), k < 16 → s.keyDown k = true → (∀ j, j < k → s.keyDown j = false) →
    ∃ t, exec (.getKeyBlocking x) s = .next t ∧
      (t.readV x).toNat = k ∧ t.pc = s.pc + 2#16 ∧ KeepsRegistersBut [x] s t ∧ ChangesOnly [.registers, .pc] s t) ∧
  (∀ (x : Reg) (s : State), (∀ k, k < 16 → s.keyDown k = false) → exec (.getKeyBlocking x) s = .next s) ∧
  (∀ (x : Reg) (s : State), s.fault = none → s.nextInstr = some (.getKeyBlocking x) →
    (∀ k, k < 16 → s.keyDown k = false) → step s = .next s ∧ stepResult s s = .waiting)

/-- R285, R286: FX15 puts Vx into DT, FX18 puts Vx into ST. -/
def Obligations.SetTimersCopyVx : Prop :=
  EncodedAs 0xF0FF#16 0xF015#16 (fun w => .setDelay (xField w)) ∧
  EncodedAs 0xF0FF#16 0xF018#16 (fun w => .setSound (xField w)) ∧
  ∀ (x : Reg) (s : State),
    (∃ t, exec (.setDelay x) s = .next t ∧
      t.DT = s.readV x ∧ t.pc = s.pc + 2#16 ∧ ChangesOnly [.delay, .pc] s t) ∧
    (∃ t, exec (.setSound x) s = .next t ∧
      t.ST = s.readV x ∧ t.pc = s.pc + 2#16 ∧ ChangesOnly [.sound, .pc] s t)

/-! ## The step (spec/40_cycle.md) -/

/-- In RUNNING, when the two bytes at `pc`, the lower address first, decode to an instruction, the step is its `exec` at
this very state; `exec` does the default advance itself (log 15). -/
def Obligations.StepRunsTheDecodedInstruction : Prop :=
  ∀ (s : State) (i : Instr), s.fault = none → s.pc.toNat + 1 < 0x1000 →
    decodeWord (wordOfBytes (s.readByte s.pc.toNat) (s.readByte (s.pc.toNat + 1))) = .ok i →
    step s = exec i s

/-- A word of the host's table, stored where the step fetches, is what the step runs (the interface's own, log 8). -/
def Obligations.StepRunsTheStoredWord : Prop :=
  ∀ (s : State) (w : Nat) (i : Instr), Memory.wf s.mem = true → decodeTableWord 16 w = some i →
    step (s.withFetchWord 16 w) = exec i (s.withFetchWord 16 w)

/-- A fetch at `pc` 0xFFF or above raises MEM_OUT_OF_RANGE with the lowest address outside the memory and word 0, whatever
stands in memory (the spec's decisions D6, D26). -/
def Obligations.FetchOutsideMemoryFaults : Prop :=
  ∀ s : State, s.fault = none → 0xFFF ≤ s.pc.toNat →
    step s = .next (faultedState s .memOutOfRange 0#16 (if s.pc.toNat = 0xFFF then 0x1000#16 else s.pc))

/-- A word that is no instruction raises INVALID_OPCODE and is recorded; nothing else changes (the spec's decision D2). -/
def Obligations.InvalidWordFaultsAndIsRecorded : Prop :=
  ∀ (s : State) (w : Word), s.fault = none → s.pc.toNat + 1 < 0x1000 →
    w = wordOfBytes (s.readByte s.pc.toNat) (s.readByte (s.pc.toNat + 1)) → (decodeWord w).toOption = none →
    step s = .next (faultedState s .invalidOpcode w 0#16)

/-- A STEP in FAULTED changes nothing and its result is FAULT with the recorded fault (the spec's decision D18). -/
def Obligations.StepInFaultedDoesNothing : Prop :=
  ∀ (s : State) (f : FaultRecord), s.fault = some f →
    step s = .next s ∧ stepResult s s = .fault f ∧ ∀ randIn, stepWith randIn s = .next s

/-- Faults are precise: a step that ends in FAULTED leaves the state it began with but for the record, which holds A and the
fetched word, or 0 when the fetch itself faulted (the spec's decision D3). -/
def Obligations.FaultsArePrecise : Prop :=
  ∀ s t : State, s.fault = none → step s = .next t → t.fault ≠ none →
    ∃ f : FaultRecord, t = { s with fault := some f } ∧ f.pc = s.pc ∧
      f.word = (if s.pc.toNat + 1 < 0x1000
        then wordOfBytes (s.readByte s.pc.toNat) (s.readByte (s.pc.toNat + 1)) else 0#16) ∧
      stepResult s t = .fault f

/-- R122: every step is a transition to a next state, from every state and with every random byte (that a fault, and a STEP
in FAULTED, are transitions too is the spec's decisions D3, D18; log 2). -/
def Obligations.EveryStepCompletes : Prop :=
  ∀ s : State, (∃ t, step s = .next t) ∧ ∀ randIn : Byte, ∃ t, stepWith randIn s = .next t

/-- Each component is written only by the instructions the spec names: DT by FX15, ST by FX18, I by ANNN and FX1E, the stack
by 2NNN and 00EE, the framebuffer by 00E0 and DXYN, memory by FX33 and FX55, a register as the table of R23 says, the keys
by none. -/
def Obligations.ComponentsHaveOnlyTheirWriters : Prop :=
  ∀ (i : Instr) (s t : State), exec i s = .next t →
    (t.DT ≠ s.DT → ∃ x, i = .setDelay x) ∧
    (t.ST ≠ s.ST → ∃ x, i = .setSound x) ∧
    (t.I ≠ s.I → (∃ nnn, i = .setIndex nnn) ∨ ∃ x, i = .addToIndex x) ∧
    (t.stack ≠ s.stack → (∃ nnn, i = .callSubroutine nnn) ∨ i = .returnSubroutine) ∧
    (t.fb ≠ s.fb → i = .clearScreen ∨ ∃ x y n, i = .draw x y n) ∧
    (t.mem ≠ s.mem → ∃ x, i = .storeBCD x ∨ i = .dumpRegisters x) ∧
    (∀ r, t.readV r ≠ s.readV r → WritesRegister i r) ∧
    t.key = s.key ∧ t.config = s.config

/-- Where each instruction that raises no fault leaves `pc`: the table of R25 (that BNNN's sum is kept in full is the spec's
decision D6). -/
def Obligations.PcAfterEachInstruction : Prop :=
  ∀ (i : Instr) (s t : State), exec i s = .next t → s.fault = none → t.fault = none → LeavesPc i s t

/-- A step never changes a byte below 0x200, in any state whose memory has its canonical form (the protection is the spec's
decision D7). -/
def Obligations.StepNeverWritesReservedMemory : Prop :=
  ∀ s t : State, Memory.wf s.mem = true → step s = .next t → ∀ a, a < 0x200 → t.readByte a = s.readByte a

/-- The bytes an instruction stored are what a later fetch sees (the spec's own inference R67): after FX55 the word at any
address of memory is made of the bytes V0 to Vx where they were stored, from I on, and of the bytes that were there before
everywhere else; after FX33 the same of the three digits of Vx. So after FX55 the word at I + k is Vk, Vk+1 for every k
with k + 1 up to x. The premises keep the store out of the faults of the spec's decisions D6, D7; the form of memory is the
model's (log 7). -/
def Obligations.StoredBytesAreFetched : Prop :=
  (∀ (x : Reg) (s t : State), Memory.wf s.mem = true → 0x200 ≤ s.dataBase → s.dataBase + x.toNat < 0x1000 →
    exec (.dumpRegisters x) s = .next t →
    ∀ (p : Word) (hi lo : Byte), p.toNat + 1 < 0x1000 →
      hi = (if s.dataBase ≤ p.toNat ∧ p.toNat ≤ s.dataBase + x.toNat
        then s.readV (BitVec.ofNat 4 (p.toNat - s.dataBase)) else s.readByte p.toNat) →
      lo = (if s.dataBase ≤ p.toNat + 1 ∧ p.toNat + 1 ≤ s.dataBase + x.toNat
        then s.readV (BitVec.ofNat 4 (p.toNat + 1 - s.dataBase)) else s.readByte (p.toNat + 1)) →
      (t.setPc p).nextInstr = (decodeWord (wordOfBytes hi lo)).toOption) ∧
  (∀ (x : Reg) (s t : State), Memory.wf s.mem = true → 0x200 ≤ s.dataBase → s.dataBase + 3 ≤ 0x1000 →
    exec (.storeBCD x) s = .next t →
    ∀ (p : Word) (digit : Nat → Byte), p.toNat + 1 < 0x1000 →
      (digit 0).toNat = (s.readV x).toNat / 100 → (digit 1).toNat = (s.readV x).toNat / 10 % 10 →
      (digit 2).toNat = (s.readV x).toNat % 10 →
      (t.setPc p).nextInstr = (decodeWord (wordOfBytes
        (if s.dataBase ≤ p.toNat ∧ p.toNat < s.dataBase + 3 then digit (p.toNat - s.dataBase) else s.readByte p.toNat)
        (if s.dataBase ≤ p.toNat + 1 ∧ p.toNat + 1 < s.dataBase + 3 then digit (p.toNat + 1 - s.dataBase)
          else s.readByte (p.toNat + 1)))).toOption)

/-- `MemWrite` and `MemRead` of a byte: what is written is read back, every other address keeps its byte, the canonical form
is kept, and the faults come at 0x1000 and above for both and below 0x200 for a write (the spec's decisions D6, D7).
The canonical form is the model's own representation (log 7), and so is the `info` of an address above 0xFFFF, which no
access of the machine has (log 10). -/
def Obligations.MemoryReadsBackWhatWasWritten : Prop :=
  ∀ (m : Memory) (a : Nat) (v : Byte), Memory.wf m = true →
    (0x200 ≤ a → a < 0x1000 → ∃ m', memWrite m a v = .ok m' ∧ Memory.wf m' = true ∧
      memRead m' a = .ok v ∧ ∀ b, b ≠ a → memRead m' b = memRead m b) ∧
    (a < 0x200 → memWrite m a v = .error ⟨.reservedWrite, BitVec.ofNat 16 a⟩) ∧
    (0x1000 ≤ a → memWrite m a v = .error ⟨.memOutOfRange, BitVec.ofNat 16 a⟩ ∧
      memRead m a = .error ⟨.memOutOfRange, BitVec.ofNat 16 a⟩) ∧
    (a < 0x1000 → memRead m a = .ok (Memory.read m a))

/-! ## The random byte (spec/60_exceptions.md R316) -/

/-- Only CXNN uses the random byte of a step: every other step is the same with any two bytes, and a CXNN masks the byte it
is given, whatever that is (the spec's decision D12). -/
def Obligations.OnlyRandomUsesTheRandomByte : Prop :=
  (∀ (r r' : Byte) (s : State), (∀ x nn, s.nextInstr ≠ some (.random x nn)) → stepWith r s = stepWith r' s) ∧
  (∀ (r : Byte) (s : State) (x : Reg) (nn : Byte), s.fault = none → s.nextInstr = some (.random x nn) →
    ∃ t, stepWith r s = .next t ∧ t.readV x = r &&& nn)

/-- `step` is STEP with the free value as its random byte (the model's form, log 3). -/
def Obligations.StepDrawsTheFreeByte : Prop :=
  ∀ s : State, step s = stepWith (Config.randIn s.randCount) s

/-! ## The invariant and runs -/

/-- The invariant holds at reset: memory nothing, `pc` = 0x200, empty stack, no fault (all but `pc` the spec's decision D13;
the form of memory is the model's, log 7). -/
def Obligations.InvariantHoldsAtReset : Prop := Inv State.reset

/-- Every step keeps the invariant: memory in canonical form and inside its addresses, `pc` at most 0x10FE, stack entries at
most 0x1000 and no more than STACK_LIMIT of them, and a fault record that is about the instruction at `pc` and legal (the
form of memory is the model's, log 7; the faults that bound `pc` and the stack, and the record, are the spec's decisions
D3, D5, D6). -/
def Obligations.StepKeepsTheInvariant : Prop :=
  ∀ s t : State, Inv s → step s = .next t → Inv t

/-- Every operation of the host keeps the invariant, STEP with any random byte, TICK, SET_KEYS, READ and RESET alike, and the
RESET state for any image that fits has it, whatever it was reset from (the operations are the spec's decision D1, the
values at reset D13; the form of memory is the model's, log 7). -/
def Obligations.HostOperationsKeepTheInvariant : Prop :=
  (∀ (op : HostOp) (s t : State), Inv s → hostStep op s = .next t → Inv t) ∧
  (∀ (image : List Byte) (s : State), CleanReset image s → Inv s)

/-- Every state the host can reach from any RESET, by its operations in any order and with any random bytes, meets the
invariant; so `pc` is at most 0x10FE at the start of every step (the operations are the spec's decision D1; logs 7 and 14). -/
def Obligations.ReachableStatesMeetTheInvariant : Prop :=
  ∀ s : State, Reachable s → Inv s

/-! ## The host's operations (spec/60_exceptions.md, spec/70_reset_and_hazards.md) -/

/-- RESET with an image that fits puts the image at 0x200 and every other component at its reset value, from any state
(the values but `pc` and the image are the spec's decision D13), keeping the configuration; an image of more than 3584 bytes
is refused (D14). -/
def Obligations.ResetLoadsTheImage : Prop :=
  (∀ (image : List Byte) (s : State), image.length ≤ 3584 →
    ∃ t, hostStep (.reset image) s = .next t ∧
      (∀ k (h : k < image.length), t.readByte (0x200 + k) = image[k]) ∧
      (∀ a, a < 0x200 ∨ 0x200 + image.length ≤ a → t.readByte a = 0#8) ∧
      (∀ r, t.readV r = 0#8) ∧ t.I = 0#16 ∧ t.pc = 0x200#16 ∧ t.stack = [] ∧ t.DT = 0#8 ∧ t.ST = 0#8 ∧
      (∀ k, t.keyDown k = false) ∧ (∀ x y, Framebuffer.pixel t.fb x y = false) ∧
      t.fault = none ∧ t.status = .running ∧ t.config = s.config) ∧
  (∀ (image : List Byte) (s : State), 3584 < image.length → hostStep (.reset image) s = .refused .imageTooLong)

/-- TICK counts both timers down by one, never below 0, and changes nothing else, in RUNNING and FAULTED alike (the latter is
the spec's decision D17). -/
def Obligations.TickCountsBothTimersDown : Prop :=
  ∀ s : State, ∃ t, hostStep .tick s = .next t ∧
    (t.DT.toNat = if s.DT.toNat > 0 then s.DT.toNat - 1 else 0) ∧
    (t.ST.toNat = if s.ST.toNat > 0 then s.ST.toNat - 1 else 0) ∧
    ChangesOnly [.delay, .sound] s t

/-- SET_KEYS sets each of the 16 keys to its bit and changes nothing else (that no other operation does is the spec's decision
D22). -/
def Obligations.SetKeysSetsEveryKey : Prop :=
  ∀ (keysIn : BitVec 16) (s : State), ∃ t, hostStep (.setKeys keysIn) s = .next t ∧
    (∀ k, k < 16 → t.keyDown k = keysIn.getLsbD k) ∧ ChangesOnly [.keys] s t

/-- READ changes nothing and returns the framebuffer, ST, the status and the fault record with the spec's cause codes, all 0
when there is none (the spec's decisions D19, D21). -/
def Obligations.ReadShowsStatusAndRecord : Prop :=
  ∀ s : State, hostStep .read s = .next s ∧
    ∃ o : Observation, hostReply .read s s = .observed o ∧ o.fb = s.fb ∧ o.ST = s.ST ∧
      (s.fault = none → o.status = .running ∧
        o.faultCause = 0#3 ∧ o.faultPc = 0#16 ∧ o.faultWord = 0#16 ∧ o.faultInfo = 0#16) ∧
      (∀ f, s.fault = some f → o.status = .faulted ∧
        o.faultPc = f.pc ∧ o.faultWord = f.word ∧ o.faultInfo = f.info ∧
        (f.cause = .invalidOpcode → o.faultCause = 1#3) ∧
        (f.cause = .stackUnderflow → o.faultCause = 2#3) ∧
        (f.cause = .stackOverflow → o.faultCause = 3#3) ∧
        (f.cause = .memOutOfRange → o.faultCause = 4#3) ∧
        (f.cause = .reservedWrite → o.faultCause = 5#3) ∧
        (f.cause = .keyIndexOutOfRange → o.faultCause = 6#3))

/-- A fault stays until RESET, which clears it: in FAULTED every other operation keeps the record, `pc`, memory, the registers
and the screen. STEP and READ change nothing at all; TICK still counts both timers down, and SET_KEYS still sets every key,
each changing nothing else (the spec's decisions D17, D18). -/
def Obligations.FaultStaysUntilReset : Prop :=
  ∀ (s t : State) (op : HostOp) (f : FaultRecord), s.fault = some f → hostStep op s = .next t →
    ((∃ image, op = .reset image) ∧ t.fault = none) ∨
    ((∀ image, op ≠ .reset image) ∧ t.fault = some f ∧ ChangesOnly [.delay, .sound, .keys] s t ∧
      (∀ randIn, op = .step randIn → t = s) ∧
      (op = .read → t = s) ∧
      (op = .tick → t.DT.toNat = s.DT.toNat - 1 ∧ t.ST.toNat = s.ST.toNat - 1 ∧ ChangesOnly [.delay, .sound] s t) ∧
      (∀ keysIn, op = .setKeys keysIn →
        (∀ k, k < 16 → t.keyDown k = keysIn.getLsbD k) ∧ ChangesOnly [.keys] s t))

/-- The results of a STEP: FAULT exactly when the state it leaves is FAULTED; WAITING only for an FX0A, which left the state
as it was; EXECUTED else (the spec's decision D1). -/
def Obligations.StepResultsAreTheThree : Prop :=
  ∀ s t : State, step s = .next t →
    ((∃ f, stepResult s t = .fault f) ↔ t.fault ≠ none) ∧
    (stepResult s t = .waiting →
      t = s ∧ t.fault = none ∧ (∃ x, s.nextInstr = some (.getKeyBlocking x)) ∧ ∀ k, s.keyDown k = false) ∧
    (stepResult s t = .executed →
      t.fault = none ∧ ∀ x, s.nextInstr = some (.getKeyBlocking x) → ∃ k, s.keyDown k = true)
end

