-- ==== Sys2Proof/Laws/Blit.lean ====
section
/-! SUPPORT. The sprite blit in closed form: which pixels it turns over, and when it reports a collision
(spec/45_display.md R253 to R256). -/

namespace Sys2Proof.Machine

/-! ## Pixels -/

theorem Framebuffer.pixel_outside (f : Framebuffer) {x y : Nat} (h : ¬ (x < 64 ∧ y < 32)) :
    Framebuffer.pixel f x y = false := dif_neg h

/-- A pixel that is on is in the grid. -/
theorem Framebuffer.pixel_inside {f : Framebuffer} {x y : Nat} (h : Framebuffer.pixel f x y = true) :
    x < 64 ∧ y < 32 := by
  by_contra hn
  rw [Framebuffer.pixel_outside f hn] at h
  cases h

@[simp] theorem Framebuffer.pixel_clear (x y : Nat) : Framebuffer.pixel Framebuffer.clear x y = false := by
  simp [Framebuffer.pixel, Framebuffer.clear]

/-- A pixel after one pixel of the grid is set. -/
theorem Framebuffer.pixel_setPixel (f : Framebuffer) {px py : Nat} (h : px < 64 ∧ py < 32) (b : Bool) (x y : Nat) :
    Framebuffer.pixel (Framebuffer.setPixel f px py b) x y =
      if x = px ∧ y = py then b else Framebuffer.pixel f x y := by
  by_cases hg : x < 64 ∧ y < 32
  · simp only [Framebuffer.pixel, Framebuffer.setPixel, dif_pos hg, dif_pos h, Vector.getElem_set]
    by_cases hy : py = y
    · subst hy
      simp only [if_true, Vector.getElem_set]
      by_cases hx : px = x
      · simp [hx]
      · simp [hx, Ne.symm hx]
    · simp [hy, Ne.symm hy]
  · rw [Framebuffer.pixel_outside _ hg, Framebuffer.pixel_outside _ hg, if_neg (by omega)]

/-! ## One bit -/

/-- A bit turns over its own pixel and no other. -/
theorem blitBit_pixel (px py : Nat) (bit : Bool) (c : Canvas) {x y : Nat} (h : x < 64 ∧ y < 32) :
    Framebuffer.pixel (blitBit px py bit c).1 x y =
      (Framebuffer.pixel c.1 x y ^^ (bit && decide (x = px ∧ y = py))) := by
  unfold blitBit
  split
  · rename_i hp
    rw [Framebuffer.pixel_setPixel _ hp]
    by_cases he : x = px ∧ y = py
    · obtain ⟨rfl, rfl⟩ := he
      simp
    · simp [he]
  · have he : ¬ (x = px ∧ y = py) := by omega
    simp [he]

/-- A bit collides exactly when it is 1 and its pixel is on. -/
theorem blitBit_collision (px py : Nat) (bit : Bool) (c : Canvas) :
    (blitBit px py bit c).2 = (c.2 || (bit && Framebuffer.pixel c.1 px py)) := by
  unfold blitBit
  split
  · rfl
  · rename_i hp
    simp [Framebuffer.pixel_outside _ hp]

/-! ## One row -/

/-- The last `j` bits of a row turn over the pixels under their 1 bits. -/
theorem blitRow_pixel (x0 py : Nat) (row : Byte) (j : Nat) (hj : j ≤ 8) (c : Canvas) {x y : Nat}
    (h : x < 64 ∧ y < 32) :
    Framebuffer.pixel (blitRow x0 py row j c).1 x y =
      (Framebuffer.pixel c.1 x y ^^
        (decide (y = py ∧ x0 + 8 ≤ x + j ∧ x < x0 + 8) && row.getLsbD (7 - (x - x0)))) := by
  induction j generalizing c with
  | zero =>
    rw [decide_eq_false (by omega), Bool.false_and, Bool.xor_false]
    rfl
  | succ j ih =>
    rw [blitRow, ih (by omega), blitBit_pixel _ _ _ _ h]
    by_cases he : x = x0 + (7 - j) ∧ y = py
    · have h1 : ¬ (y = py ∧ x0 + 8 ≤ x + j ∧ x < x0 + 8) := by omega
      have h2 : y = py ∧ x0 + 8 ≤ x + (j + 1) ∧ x < x0 + 8 := by omega
      have h3 : 7 - (x - x0) = j := by omega
      rw [decide_eq_true he, decide_eq_false h1, decide_eq_true h2, h3]
      simp
    · rw [decide_eq_false he, Bool.and_false, Bool.xor_false]
      have h4 : (y = py ∧ x0 + 8 ≤ x + j ∧ x < x0 + 8) ↔ (y = py ∧ x0 + 8 ≤ x + (j + 1) ∧ x < x0 + 8) := by omega
      rw [decide_eq_decide.mpr h4]

/-- The last `j` bits of a row collide exactly where a 1 bit meets an on pixel. -/
theorem blitRow_collision (x0 py : Nat) (row : Byte) (j : Nat) (hj : j ≤ 8) (c : Canvas) :
    (blitRow x0 py row j c).2 = true ↔
      c.2 = true ∨ ∃ x, x0 + 8 ≤ x + j ∧ x < x0 + 8 ∧ row.getLsbD (7 - (x - x0)) = true ∧
        Framebuffer.pixel c.1 x py = true := by
  induction j generalizing c with
  | zero =>
    simp only [blitRow]
    constructor
    · exact .inl
    · rintro (h | ⟨x, h1, h2, -⟩)
      · exact h
      · omega
  | succ j ih =>
    rw [blitRow, ih (by omega), blitBit_collision]
    have hbit : 7 - (x0 + (7 - j) - x0) = j := by omega
    constructor
    · rintro (h | ⟨x, h1, h2, h3, h4⟩)
      · rw [Bool.or_eq_true, Bool.and_eq_true] at h
        rcases h with h | ⟨hb, hp⟩
        · exact .inl h
        · exact .inr ⟨x0 + (7 - j), by omega, by omega, by rw [hbit]; exact hb, hp⟩
      · refine .inr ⟨x, by omega, h2, h3, ?_⟩
        have hg := Framebuffer.pixel_inside h4
        rw [blitBit_pixel _ _ _ _ hg, decide_eq_false (by omega), Bool.and_false, Bool.xor_false] at h4
        exact h4
    · rintro (h | ⟨x, h1, h2, h3, h4⟩)
      · exact .inl (by simp [h])
      · by_cases he : x = x0 + (7 - j)
        · subst he
          rw [hbit] at h3
          exact .inl (by simp [h3, h4])
        · refine .inr ⟨x, by omega, h2, h3, ?_⟩
          rw [blitBit_pixel _ _ _ _ (Framebuffer.pixel_inside h4), decide_eq_false (by omega), Bool.and_false,
            Bool.xor_false]
          exact h4

/-! ## All rows -/

/-- The bit a sprite of rows, anchored at column `x0` and row `y0`, has for a pixel. -/
def rowsBit (rows : List Byte) (x0 y0 x y : Nat) : Bool :=
  decide (x0 ≤ x ∧ x < x0 + 8 ∧ y0 ≤ y) && ((rows[y - y0]?).getD 0#8).getLsbD (7 - (x - x0))

@[simp] theorem rowsBit_nil (x0 y0 x y : Nat) : rowsBit [] x0 y0 x y = false := by
  simp [rowsBit]

/-- The bit of a sprite for a pixel: its first row's, or that of the rest one row down. -/
theorem rowsBit_cons (row : Byte) (rows : List Byte) (x0 y0 x y : Nat) :
    rowsBit (row :: rows) x0 y0 x y =
      if y = y0 then decide (x0 ≤ x ∧ x < x0 + 8) && row.getLsbD (7 - (x - x0)) else rowsBit rows x0 (y0 + 1) x y := by
  unfold rowsBit
  split
  · rename_i h
    subst h
    simp
  · rename_i h
    by_cases hy : y0 ≤ y
    · have e : y - y0 = (y - (y0 + 1)) + 1 := by omega
      have : (x0 ≤ x ∧ x < x0 + 8 ∧ y0 ≤ y) ↔ (x0 ≤ x ∧ x < x0 + 8 ∧ y0 + 1 ≤ y) := by omega
      rw [e, List.getElem?_cons_succ, decide_eq_decide.mpr this]
    · rw [decide_eq_false (by omega), decide_eq_false (by omega)]
      simp

/-- The rows turn over the pixels under their 1 bits. -/
theorem blitRows_pixel (x0 y0 : Nat) (rows : List Byte) (c : Canvas) {x y : Nat} (h : x < 64 ∧ y < 32) :
    Framebuffer.pixel (blitRows x0 y0 rows c).1 x y = (Framebuffer.pixel c.1 x y ^^ rowsBit rows x0 y0 x y) := by
  induction rows generalizing y0 c with
  | nil => simp [blitRows]
  | cons row rows ih =>
    rw [blitRows, ih, blitRow_pixel _ _ _ _ (Nat.le_refl 8) _ h, rowsBit_cons]
    by_cases hy : y = y0
    · have h0 : rowsBit rows x0 (y0 + 1) x y = false := by
        unfold rowsBit
        rw [decide_eq_false (by omega), Bool.false_and]
      have h1 : (y = y0 ∧ x0 + 8 ≤ x + 8 ∧ x < x0 + 8) ↔ (x0 ≤ x ∧ x < x0 + 8) := by omega
      rw [h0, if_pos hy, decide_eq_decide.mpr h1, Bool.xor_false]
    · rw [if_neg hy, decide_eq_false (by omega), Bool.false_and, Bool.xor_false]

/-- The rows collide exactly where a 1 bit meets an on pixel. -/
theorem blitRows_collision (x0 y0 : Nat) (rows : List Byte) (c : Canvas) :
    (blitRows x0 y0 rows c).2 = true ↔
      c.2 = true ∨ ∃ x y, rowsBit rows x0 y0 x y = true ∧ Framebuffer.pixel c.1 x y = true := by
  induction rows generalizing y0 c with
  | nil => simp [blitRows]
  | cons row rows ih =>
    rw [blitRows, ih, blitRow_collision _ _ _ _ (Nat.le_refl 8), or_assoc]
    refine or_congr_right ?_
    constructor
    · rintro (⟨x, h1, h2, h3, h4⟩ | ⟨x, y, h1, h2⟩)
      · refine ⟨x, y0, ?_, h4⟩
        rw [rowsBit_cons, if_pos rfl, decide_eq_true (by omega), h3]
        rfl
      · have hy : y0 + 1 ≤ y := by
          unfold rowsBit at h1
          rw [Bool.and_eq_true, decide_eq_true_eq] at h1
          omega
        refine ⟨x, y, ?_, ?_⟩
        · rw [rowsBit_cons, if_neg (by omega)]
          exact h1
        · rw [blitRow_pixel _ _ _ _ (Nat.le_refl 8) _ (Framebuffer.pixel_inside h2), decide_eq_false (by omega),
            Bool.false_and, Bool.xor_false] at h2
          exact h2
    · rintro ⟨x, y, h1, h2⟩
      rw [rowsBit_cons] at h1
      by_cases hy : y = y0
      · rw [if_pos hy, Bool.and_eq_true, decide_eq_true_eq] at h1
        rw [hy] at h2
        exact .inl ⟨x, by omega, h1.1.2, h1.2, h2⟩
      · rw [if_neg hy] at h1
        refine .inr ⟨x, y, h1, ?_⟩
        rw [blitRow_pixel _ _ _ _ (Nat.le_refl 8) _ (Framebuffer.pixel_inside h2), decide_eq_false (by omega),
          Bool.false_and, Bool.xor_false]
        exact h2

/-! ## The blit -/

/-- Every pixel of the grid after a blit. -/
theorem blit_pixel (rows : List Byte) (vx vy : Byte) (f : Framebuffer) {x y : Nat} (h : x < 64 ∧ y < 32) :
    Framebuffer.pixel (blit rows vx vy f).1 x y =
      (Framebuffer.pixel f x y ^^ rowsBit rows (vx.toNat % 64) (vy.toNat % 32) x y) :=
  blitRows_pixel _ _ rows (f, false) h

/-- When a blit reports a collision. -/
theorem blit_collision (rows : List Byte) (vx vy : Byte) (f : Framebuffer) :
    (blit rows vx vy f).2 = true ↔
      ∃ x y, rowsBit rows (vx.toNat % 64) (vy.toNat % 32) x y = true ∧ Framebuffer.pixel f x y = true := by
  rw [blit, blitRows_collision]
  simp

end Sys2Proof.Machine
end

