-- ==== Sys2Proof/Laws/Decode.lean ====
section
/-! SUPPORT. The fields of a word as numbers, what the encoder's formats put where the decoder's fields look, and the
bytes of a word (spec/30_encoding.md R81, R82). -/

namespace Sys2Proof

/-! ## Formats and fields as numbers -/

theorem toNat_encodeNNN (a : Nibble) (nnn : Addr12) : (encodeNNN a nnn).toNat = a.toNat * 4096 + nnn.toNat := by
  show (a ++ nnn : BitVec (4 + 12)).toNat = _
  rw [BitVec.toNat_append, ← Nat.shiftLeft_add_eq_or_of_lt nnn.isLt, Nat.shiftLeft_eq]

theorem toNat_encodeXNN (a : Nibble) (x : Reg) (nn : Byte) :
    (encodeXNN a x nn).toNat = a.toNat * 4096 + x.toNat * 256 + nn.toNat := by
  show (a ++ (x ++ nn : BitVec (4 + 8)) : BitVec (4 + (4 + 8))).toNat = _
  rw [BitVec.toNat_append, ← Nat.shiftLeft_add_eq_or_of_lt (BitVec.isLt _), BitVec.toNat_append,
    ← Nat.shiftLeft_add_eq_or_of_lt nn.isLt, Nat.shiftLeft_eq, Nat.shiftLeft_eq]
  omega

theorem toNat_encodeXYN (a : Nibble) (x y : Reg) (n : Nibble) :
    (encodeXYN a x y n).toNat = a.toNat * 4096 + x.toNat * 256 + y.toNat * 16 + n.toNat := by
  show (a ++ (x ++ (y ++ n : BitVec (4 + 4)) : BitVec (4 + (4 + 4))) : BitVec (4 + (4 + (4 + 4)))).toNat = _
  rw [BitVec.toNat_append, ← Nat.shiftLeft_add_eq_or_of_lt (BitVec.isLt _), BitVec.toNat_append,
    ← Nat.shiftLeft_add_eq_or_of_lt (BitVec.isLt _), BitVec.toNat_append, ← Nat.shiftLeft_add_eq_or_of_lt n.isLt,
    Nat.shiftLeft_eq, Nat.shiftLeft_eq, Nat.shiftLeft_eq]
  omega

theorem toNat_wordOfBytes (hi lo : Byte) : (wordOfBytes hi lo).toNat = hi.toNat * 256 + lo.toNat := by
  show (hi ++ lo : BitVec (8 + 8)).toNat = _
  rw [BitVec.toNat_append, ← Nat.shiftLeft_add_eq_or_of_lt lo.isLt, Nat.shiftLeft_eq]

theorem toNat_aField (w : Word) : (aField w).toNat = w.toNat / 4096 := by
  have := w.isLt
  simp only [aField, BitVec.extractLsb'_toNat, Nat.shiftRight_eq_div_pow]
  omega

theorem toNat_xField (w : Word) : (xField w).toNat = w.toNat / 256 % 16 := by
  simp only [xField, BitVec.extractLsb'_toNat, Nat.shiftRight_eq_div_pow]

theorem toNat_yField (w : Word) : (yField w).toNat = w.toNat / 16 % 16 := by
  simp only [yField, BitVec.extractLsb'_toNat, Nat.shiftRight_eq_div_pow]

theorem toNat_nField (w : Word) : (nField w).toNat = w.toNat % 16 := by
  simp only [nField, BitVec.extractLsb'_toNat, Nat.shiftRight_zero]

theorem toNat_nnField (w : Word) : (nnField w).toNat = w.toNat % 256 := by
  simp only [nnField, BitVec.extractLsb'_toNat, Nat.shiftRight_zero]

theorem toNat_nnnField (w : Word) : (nnnField w).toNat = w.toNat % 4096 := by
  simp only [nnnField, BitVec.extractLsb'_toNat, Nat.shiftRight_zero]

theorem toNat_highByte (w : Word) : (highByte w).toNat = w.toNat / 256 := by
  have := w.isLt
  simp only [highByte, BitVec.extractLsb'_toNat, Nat.shiftRight_eq_div_pow]
  omega

theorem toNat_lowByte (w : Word) : (lowByte w).toNat = w.toNat % 256 := by
  simp only [lowByte, BitVec.extractLsb'_toNat, Nat.shiftRight_zero]

/-! ## Fields of the formats -/

@[simp] theorem aField_encodeNNN (a : Nibble) (nnn : Addr12) : aField (encodeNNN a nnn) = a := by
  apply BitVec.eq_of_toNat_eq
  rw [toNat_aField, toNat_encodeNNN]
  have := nnn.isLt
  omega

@[simp] theorem nnnField_encodeNNN (a : Nibble) (nnn : Addr12) : nnnField (encodeNNN a nnn) = nnn := by
  apply BitVec.eq_of_toNat_eq
  rw [toNat_nnnField, toNat_encodeNNN]
  have := nnn.isLt
  omega

@[simp] theorem aField_encodeXNN (a : Nibble) (x : Reg) (nn : Byte) : aField (encodeXNN a x nn) = a := by
  apply BitVec.eq_of_toNat_eq
  rw [toNat_aField, toNat_encodeXNN]
  have := nn.isLt
  have := x.isLt
  omega

@[simp] theorem xField_encodeXNN (a : Nibble) (x : Reg) (nn : Byte) : xField (encodeXNN a x nn) = x := by
  apply BitVec.eq_of_toNat_eq
  rw [toNat_xField, toNat_encodeXNN]
  have := nn.isLt
  have := x.isLt
  omega

@[simp] theorem nnField_encodeXNN (a : Nibble) (x : Reg) (nn : Byte) : nnField (encodeXNN a x nn) = nn := by
  apply BitVec.eq_of_toNat_eq
  rw [toNat_nnField, toNat_encodeXNN]
  have := nn.isLt
  omega

@[simp] theorem aField_encodeXYN (a : Nibble) (x y : Reg) (n : Nibble) : aField (encodeXYN a x y n) = a := by
  apply BitVec.eq_of_toNat_eq
  rw [toNat_aField, toNat_encodeXYN]
  have := n.isLt
  have := y.isLt
  have := x.isLt
  omega

@[simp] theorem xField_encodeXYN (a : Nibble) (x y : Reg) (n : Nibble) : xField (encodeXYN a x y n) = x := by
  apply BitVec.eq_of_toNat_eq
  rw [toNat_xField, toNat_encodeXYN]
  have := n.isLt
  have := y.isLt
  have := x.isLt
  omega

@[simp] theorem yField_encodeXYN (a : Nibble) (x y : Reg) (n : Nibble) : yField (encodeXYN a x y n) = y := by
  apply BitVec.eq_of_toNat_eq
  rw [toNat_yField, toNat_encodeXYN]
  have := n.isLt
  have := y.isLt
  omega

@[simp] theorem nField_encodeXYN (a : Nibble) (x y : Reg) (n : Nibble) : nField (encodeXYN a x y n) = n := by
  apply BitVec.eq_of_toNat_eq
  rw [toNat_nField, toNat_encodeXYN]
  have := n.isLt
  omega

/-! ## A word from its fields -/

theorem encodeNNN_fields (w : Word) : encodeNNN (aField w) (nnnField w) = w := by
  apply BitVec.eq_of_toNat_eq
  rw [toNat_encodeNNN, toNat_aField, toNat_nnnField]
  omega

theorem encodeXNN_fields (w : Word) : encodeXNN (aField w) (xField w) (nnField w) = w := by
  apply BitVec.eq_of_toNat_eq
  rw [toNat_encodeXNN, toNat_aField, toNat_xField, toNat_nnField]
  omega

theorem encodeXYN_fields (w : Word) : encodeXYN (aField w) (xField w) (yField w) (nField w) = w := by
  apply BitVec.eq_of_toNat_eq
  rw [toNat_encodeXYN, toNat_aField, toNat_xField, toNat_yField, toNat_nField]
  omega

/-! ## Bytes of a word -/

@[simp] theorem highByte_wordOfBytes (hi lo : Byte) : highByte (wordOfBytes hi lo) = hi := by
  apply BitVec.eq_of_toNat_eq
  rw [toNat_highByte, toNat_wordOfBytes]
  have := lo.isLt
  omega

@[simp] theorem lowByte_wordOfBytes (hi lo : Byte) : lowByte (wordOfBytes hi lo) = lo := by
  apply BitVec.eq_of_toNat_eq
  rw [toNat_lowByte, toNat_wordOfBytes]
  have := lo.isLt
  omega

@[simp] theorem wordOfBytes_bytes (w : Word) : wordOfBytes (highByte w) (lowByte w) = w := by
  apply BitVec.eq_of_toNat_eq
  rw [toNat_wordOfBytes, toNat_highByte, toNat_lowByte]
  omega

/-! ## Masks: the bits the opcode map looks at are those of the fields (R92) -/

/-- Masking with 0xF000 keeps `a`. -/
theorem and_F000 (w : Word) : w &&& 0xF000#16 = encodeNNN (aField w) 0#12 := by
  apply BitVec.eq_of_getLsbD_eq
  intro i hi
  have e : encodeNNN (aField w) 0#12 = (aField w).setWidth 16 <<< 12 := by
    apply BitVec.eq_of_toNat_eq
    rw [toNat_encodeNNN]
    have := (aField w).isLt
    simp [Nat.shiftLeft_eq]
    omega
  rw [e]
  interval_cases i <;> simp [aField]

/-- Masking with 0xF00F keeps `a` and `n`. -/
theorem and_F00F (w : Word) : w &&& 0xF00F#16 = encodeXYN (aField w) 0#4 0#4 (nField w) := by
  apply BitVec.eq_of_getLsbD_eq
  intro i hi
  have e : encodeXYN (aField w) 0#4 0#4 (nField w) =
      (aField w).setWidth 16 <<< 12 ||| (nField w).setWidth 16 := by
    apply BitVec.eq_of_toNat_eq
    have h1 := (aField w).isLt
    have h2 := (nField w).isLt
    rw [toNat_encodeXYN, BitVec.toNat_or, BitVec.toNat_shiftLeft, BitVec.toNat_setWidth, BitVec.toNat_setWidth,
      Nat.mod_eq_of_lt (show (aField w).toNat < 2 ^ 16 by omega), Nat.mod_eq_of_lt (show (nField w).toNat < 2 ^ 16 by omega),
      Nat.mod_eq_of_lt (show (aField w).toNat <<< 12 < 2 ^ 16 by rw [Nat.shiftLeft_eq]; omega),
      ← Nat.shiftLeft_add_eq_or_of_lt (show (nField w).toNat < 2 ^ 12 by omega), Nat.shiftLeft_eq]
    simp
  rw [e]
  interval_cases i <;> simp [aField, nField]

/-- Masking with 0xF0FF keeps `a` and `nn`. -/
theorem and_F0FF (w : Word) : w &&& 0xF0FF#16 = encodeXNN (aField w) 0#4 (nnField w) := by
  apply BitVec.eq_of_getLsbD_eq
  intro i hi
  have e : encodeXNN (aField w) 0#4 (nnField w) = (aField w).setWidth 16 <<< 12 ||| (nnField w).setWidth 16 := by
    apply BitVec.eq_of_toNat_eq
    have h1 := (aField w).isLt
    have h2 := (nnField w).isLt
    rw [toNat_encodeXNN, BitVec.toNat_or, BitVec.toNat_shiftLeft, BitVec.toNat_setWidth, BitVec.toNat_setWidth,
      Nat.mod_eq_of_lt (show (aField w).toNat < 2 ^ 16 by omega), Nat.mod_eq_of_lt (show (nnField w).toNat < 2 ^ 16 by omega),
      Nat.mod_eq_of_lt (show (aField w).toNat <<< 12 < 2 ^ 16 by rw [Nat.shiftLeft_eq]; omega),
      ← Nat.shiftLeft_add_eq_or_of_lt (show (nnField w).toNat < 2 ^ 12 by omega), Nat.shiftLeft_eq]
    simp
  rw [e]
  interval_cases i <;> simp [aField, nnField]

/-- The family of a word whose bits under 0xF000 are known. -/
theorem aField_of_F000 {w fixed : Word} (h : w &&& 0xF000#16 = fixed) : aField w = aField fixed := by
  rw [← h, and_F000, aField_encodeNNN]

/-- The family and `n` of a word whose bits under 0xF00F are known. -/
theorem fields_of_F00F {w fixed : Word} (h : w &&& 0xF00F#16 = fixed) :
    aField w = aField fixed ∧ nField w = nField fixed := by
  rw [← h, and_F00F, aField_encodeXYN, nField_encodeXYN]
  exact ⟨rfl, rfl⟩

/-- The family and `nn` of a word whose bits under 0xF0FF are known. -/
theorem fields_of_F0FF {w fixed : Word} (h : w &&& 0xF0FF#16 = fixed) :
    aField w = aField fixed ∧ nnField w = nnField fixed := by
  rw [← h, and_F0FF, aField_encodeXNN, nnField_encodeXNN]
  exact ⟨rfl, rfl⟩

end Sys2Proof
end

