-- ==== Sys2Proof/Laws/Memory.lean ====
section
/-! SUPPORT. Memory: a read after a write, the canonical form and that every operation keeps it, and what the checks and
the accesses of several bytes do. -/

namespace Sys2Proof.Machine

/-! ## One byte -/

@[simp] theorem Memory.read_nil (a : Nat) : Memory.read [] a = 0#8 := rfl

theorem Memory.read_cons (m : Memory) (b : Nat) (v : Byte) (a : Nat) :
    Memory.read ((b, v) :: m) a = if a = b then v else Memory.read m a := rfl

/-- Below the first address of a canonical memory nothing is listed. -/
theorem Memory.read_below {m : Memory} {low a : Nat} (h : Memory.wfFrom low m = true) (ha : a < low) :
    Memory.read m a = 0#8 := by
  induction m generalizing low with
  | nil => rfl
  | cons c m ih =>
    obtain ⟨b, v⟩ := c
    simp only [Memory.wfFrom, Bool.and_eq_true, decide_eq_true_eq] at h
    rw [Memory.read_cons, if_neg (by omega)]
    exact ih h.2 (by omega)

/-- A smaller bound is a weaker one. -/
theorem Memory.wfFrom_mono {m : Memory} {low low' : Nat} (h : Memory.wfFrom low m = true) (hl : low' ≤ low) :
    Memory.wfFrom low' m = true := by
  cases m with
  | nil => rfl
  | cons c m =>
    obtain ⟨b, v⟩ := c
    simp only [Memory.wfFrom, Bool.and_eq_true, decide_eq_true_eq] at h ⊢
    exact ⟨⟨⟨by omega, h.1.1.2⟩, h.1.2⟩, h.2⟩

theorem Memory.read_consEntry {m : Memory} {b : Nat} (v : Byte) (a : Nat) (h : Memory.wfFrom (b + 1) m = true) :
    Memory.read (Memory.cons b v m) a = if a = b then v else Memory.read m a := by
  unfold Memory.cons
  split
  · rename_i hv
    split
    · rename_i hab
      rw [hv, Memory.read_below h (by omega)]
      rfl
    · rfl
  · rfl

theorem Memory.wfFrom_consEntry {m : Memory} {low b : Nat} (v : Byte) (h : Memory.wfFrom (b + 1) m = true)
    (hl : low ≤ b) (hb : b < memorySize) : Memory.wfFrom low (Memory.cons b v m) = true := by
  unfold Memory.cons
  split
  · exact Memory.wfFrom_mono h (by omega)
  · rename_i hv
    simp only [Memory.wfFrom, Bool.and_eq_true, decide_eq_true_eq]
    exact ⟨⟨⟨hl, hb⟩, by simpa using hv⟩, h⟩

/-- A write keeps the canonical form. -/
theorem Memory.wfFrom_write {m : Memory} {low a : Nat} (v : Byte) (h : Memory.wfFrom low m = true) (hl : low ≤ a)
    (ha : a < memorySize) : Memory.wfFrom low (Memory.write m a v) = true := by
  induction m generalizing low with
  | nil => exact Memory.wfFrom_consEntry v rfl hl ha
  | cons c m ih =>
    obtain ⟨b, u⟩ := c
    have hw := h
    simp only [Memory.wfFrom, Bool.and_eq_true, decide_eq_true_eq] at h
    obtain ⟨⟨⟨h1, h2⟩, h3⟩, h4⟩ := h
    unfold Memory.write
    split
    · rename_i hab
      refine Memory.wfFrom_consEntry v ?_ hl ha
      simp only [Memory.wfFrom, Bool.and_eq_true, decide_eq_true_eq]
      exact ⟨⟨⟨by omega, h2⟩, h3⟩, h4⟩
    · split
      · rename_i hab
        subst hab
        exact Memory.wfFrom_consEntry v h4 hl ha
      · simp only [Memory.wfFrom, Bool.and_eq_true, decide_eq_true_eq]
        exact ⟨⟨⟨h1, h2⟩, h3⟩, ih h4 (by omega)⟩

/-- A read after a write: the value at the address written, and what was there everywhere else. -/
theorem Memory.read_write_from {m : Memory} {low : Nat} (h : Memory.wfFrom low m = true) (a : Nat) (v : Byte)
    (i : Nat) : Memory.read (Memory.write m a v) i = if i = a then v else Memory.read m i := by
  induction m generalizing low with
  | nil => exact Memory.read_consEntry v i rfl
  | cons c m ih =>
    obtain ⟨b, u⟩ := c
    simp only [Memory.wfFrom, Bool.and_eq_true, decide_eq_true_eq] at h
    obtain ⟨⟨⟨h1, h2⟩, h3⟩, h4⟩ := h
    unfold Memory.write
    split
    · rename_i hab
      refine Memory.read_consEntry v i ?_
      simp only [Memory.wfFrom, Bool.and_eq_true, decide_eq_true_eq]
      exact ⟨⟨⟨by omega, h2⟩, h3⟩, h4⟩
    · split
      · rename_i hab
        subst hab
        rw [Memory.read_consEntry v i h4, Memory.read_cons]
        split <;> rfl
      · rename_i hlt hne
        rw [Memory.read_cons, Memory.read_cons, ih h4]
        split
        · rw [if_neg (by omega)]
        · rfl

theorem Memory.wf_write {m : Memory} {a : Nat} (v : Byte) (h : Memory.wf m = true) (ha : a < memorySize) :
    Memory.wf (Memory.write m a v) = true := Memory.wfFrom_write v h (Nat.zero_le a) ha

theorem Memory.read_write {m : Memory} (h : Memory.wf m = true) (a : Nat) (v : Byte) (i : Nat) :
    Memory.read (Memory.write m a v) i = if i = a then v else Memory.read m i := Memory.read_write_from h a v i

/-- Canonical memories that read alike from an address on are equal as data. -/
theorem Memory.eq_of_read_from {m m' : Memory} {low : Nat} (h : Memory.wfFrom low m = true)
    (h' : Memory.wfFrom low m' = true) (he : ∀ a, Memory.read m a = Memory.read m' a) : m = m' := by
  induction m generalizing low m' with
  | nil =>
    cases m' with
    | nil => rfl
    | cons c m' =>
      obtain ⟨b, v⟩ := c
      simp only [Memory.wfFrom, Bool.and_eq_true, decide_eq_true_eq] at h'
      have := he b
      rw [Memory.read_cons, if_pos rfl, Memory.read_nil] at this
      exact absurd this.symm h'.1.2
  | cons c m ih =>
    obtain ⟨b, v⟩ := c
    simp only [Memory.wfFrom, Bool.and_eq_true, decide_eq_true_eq] at h
    obtain ⟨⟨⟨h1, h2⟩, h3⟩, h4⟩ := h
    cases m' with
    | nil =>
      have := he b
      rw [Memory.read_cons, if_pos rfl, Memory.read_nil] at this
      exact absurd this h3
    | cons c' m' =>
      obtain ⟨b', v'⟩ := c'
      simp only [Memory.wfFrom, Bool.and_eq_true, decide_eq_true_eq] at h'
      obtain ⟨⟨⟨h1', h2'⟩, h3'⟩, h4'⟩ := h'
      rcases Nat.lt_trichotomy b b' with hlt | heq | hgt
      · have := he b
        rw [Memory.read_cons, if_pos rfl, Memory.read_cons, if_neg (by omega),
          Memory.read_below h4' (by omega)] at this
        exact absurd this h3
      · subst heq
        have hv := he b
        rw [Memory.read_cons, if_pos rfl, Memory.read_cons, if_pos rfl] at hv
        subst hv
        have : m = m' := by
          refine ih h4 h4' fun a => ?_
          have ha := he a
          rw [Memory.read_cons, Memory.read_cons] at ha
          split at ha
          · rename_i hab
            rw [Memory.read_below h4 (by omega), Memory.read_below h4' (by omega)]
          · exact ha
        rw [this]
      · have := he b'
        rw [Memory.read_cons, if_neg (by omega), Memory.read_cons, if_pos rfl,
          Memory.read_below h4 (by omega)] at this
        exact absurd this.symm h3'

/-- Equal memories are equal data. -/
theorem Memory.eq_of_read {m m' : Memory} (h : Memory.wf m = true) (h' : Memory.wf m' = true)
    (he : ∀ a, Memory.read m a = Memory.read m' a) : m = m' := Memory.eq_of_read_from h h' he

/-! ## Several bytes -/

theorem Memory.wf_writeBytes {m : Memory} {base : Nat} {bs : List Byte} (h : Memory.wf m = true)
    (hb : base + bs.length ≤ memorySize) : Memory.wf (Memory.writeBytes m base bs) = true := by
  induction bs generalizing m base with
  | nil => exact h
  | cons b bs ih =>
    simp only [List.length_cons] at hb
    exact ih (Memory.wf_write b h (by omega)) (by omega)

/-- What a byte reads as after a write of the bytes of a list that fits the memory. -/
theorem Memory.read_writeBytes {m : Memory} {base : Nat} {bs : List Byte} (h : Memory.wf m = true)
    (hb : base + bs.length ≤ memorySize) (i : Nat) :
    Memory.read (Memory.writeBytes m base bs) i =
      if base ≤ i then (bs[i - base]?).getD (Memory.read m i) else Memory.read m i := by
  induction bs generalizing m base with
  | nil => simp [Memory.writeBytes]
  | cons b bs ih =>
    simp only [List.length_cons] at hb
    rw [Memory.writeBytes, ih (Memory.wf_write b h (by omega)) (by omega), Memory.read_write h]
    rcases Nat.lt_trichotomy i base with hlt | heq | hgt
    · rw [if_neg (by omega), if_neg (by omega), if_neg (by omega)]
    · subst heq
      rw [if_neg (by omega), if_pos rfl, if_pos (Nat.le_refl i)]
      simp
    · rw [if_pos (show base + 1 ≤ i by omega), if_neg (show ¬ i = base by omega), if_pos (show base ≤ i by omega)]
      obtain ⟨d, rfl⟩ : ∃ d, i = base + 1 + d := ⟨i - (base + 1), by omega⟩
      have e1 : base + 1 + d - (base + 1) = d := by omega
      have e2 : base + 1 + d - base = d + 1 := by omega
      rw [e1, e2, List.getElem?_cons_succ]

/-- Bytes outside the written ones are unchanged. -/
theorem Memory.read_writeBytes_outside {m : Memory} {base : Nat} {bs : List Byte} (h : Memory.wf m = true)
    (hb : base + bs.length ≤ memorySize) {i : Nat} (hi : i < base ∨ base + bs.length ≤ i) :
    Memory.read (Memory.writeBytes m base bs) i = Memory.read m i := by
  rw [Memory.read_writeBytes h hb]
  split
  · rw [List.getElem?_eq_none (by omega)]
    rfl
  · rfl

@[simp] theorem Memory.readBytes_length (m : Memory) (base n : Nat) : (Memory.readBytes m base n).length = n := by
  induction n generalizing base with
  | zero => rfl
  | succ n ih => simp [Memory.readBytes, ih]

theorem Memory.readBytes_getElem? (m : Memory) (base n k : Nat) :
    (Memory.readBytes m base n)[k]? = if k < n then some (Memory.read m (base + k)) else none := by
  induction n generalizing base k with
  | zero => simp [Memory.readBytes]
  | succ n ih =>
    cases k with
    | zero => simp [Memory.readBytes]
    | succ k =>
      rw [Memory.readBytes, List.getElem?_cons_succ, ih]
      have : base + 1 + k = base + (k + 1) := by omega
      simp [this]

/-! ## Checks (spec/20_memory.md R54, R55, R59) -/

/-- The check of a read of `n` bytes: the lowest address outside the memory, if there is one. -/
theorem firstRaise_checkRead (base n : Nat) :
    firstRaise checkRead base n =
      if 0 < n ∧ memorySize < base + n then some ⟨.memOutOfRange, BitVec.ofNat 16 (max base memorySize)⟩ else none := by
  induction n generalizing base with
  | zero => simp [firstRaise]
  | succ n ih =>
    unfold firstRaise checkRead
    by_cases h : base ≥ memorySize
    · rw [if_pos h, if_pos (by omega), Nat.max_eq_left h]
    · rw [if_neg h]
      show firstRaise checkRead (base + 1) n = _
      rw [ih]
      by_cases hn : 0 < n ∧ memorySize < base + 1 + n
      · rw [if_pos hn, if_pos (by omega)]
        have : max (base + 1) memorySize = max base memorySize := by omega
        rw [this]
      · rw [if_neg hn, if_neg (by omega)]

/-- The check of a write of `n` bytes: its first address if that is reserved, else the lowest outside the memory. -/
theorem firstRaise_checkWrite (base n : Nat) :
    firstRaise checkWrite base n =
      if 0 < n ∧ base < firstWritable then some ⟨.reservedWrite, BitVec.ofNat 16 base⟩
      else if 0 < n ∧ memorySize < base + n then some ⟨.memOutOfRange, BitVec.ofNat 16 (max base memorySize)⟩
      else none := by
  cases n with
  | zero => simp [firstRaise]
  | succ n =>
    by_cases hr : base < firstWritable
    · have hm : ¬ base ≥ memorySize := by unfold firstWritable memorySize at *; omega
      rw [firstRaise, checkWrite, if_neg hm, if_pos hr, if_pos ⟨Nat.succ_pos n, hr⟩]
    · rw [if_neg (by omega), ← firstRaise_checkRead]
      have key : ∀ k b, firstWritable ≤ b → firstRaise checkWrite b k = firstRaise checkRead b k := by
        intro k
        induction k with
        | zero => intros; rfl
        | succ k ih =>
          intro b hb
          have hc : checkWrite b = checkRead b := by
            unfold checkWrite checkRead
            have hr : ¬ b < firstWritable := by omega
            simp only [hr, if_false]
          rw [firstRaise, firstRaise, hc, ih (b + 1) (by omega)]
      exact key _ _ (by omega)

/-- A read of `n` bytes that fits gives the bytes. -/
theorem readChecked_ok (m : Memory) {base n : Nat} (h : n = 0 ∨ base + n ≤ memorySize) :
    readChecked m base n = .ok (Memory.readBytes m base n) := by
  rw [readChecked, firstRaise_checkRead, if_neg (by omega)]

/-- A read that does not fit raises MEM_OUT_OF_RANGE with its lowest address outside. -/
theorem readChecked_error (m : Memory) {base n : Nat} (hn : 0 < n) (h : memorySize < base + n) :
    readChecked m base n = .error ⟨.memOutOfRange, BitVec.ofNat 16 (max base memorySize)⟩ := by
  rw [readChecked, firstRaise_checkRead, if_pos ⟨hn, h⟩]

/-- A write that stays in the writable addresses writes its bytes. -/
theorem writeChecked_ok (m : Memory) {base : Nat} {bs : List Byte} (hr : firstWritable ≤ base)
    (h : base + bs.length ≤ memorySize) : writeChecked m base bs = .ok (Memory.writeBytes m base bs) := by
  rw [writeChecked, firstRaise_checkWrite, if_neg (by omega), if_neg (by omega)]

/-- A write that begins in the reserved addresses raises RESERVED_WRITE with its first address. -/
theorem writeChecked_reserved (m : Memory) {base : Nat} {bs : List Byte} (hn : 0 < bs.length)
    (hr : base < firstWritable) : writeChecked m base bs = .error ⟨.reservedWrite, BitVec.ofNat 16 base⟩ := by
  rw [writeChecked, firstRaise_checkWrite, if_pos ⟨hn, hr⟩]

/-- A write that leaves the memory raises MEM_OUT_OF_RANGE with its lowest address outside. -/
theorem writeChecked_outside (m : Memory) {base : Nat} {bs : List Byte} (hn : 0 < bs.length)
    (hr : firstWritable ≤ base) (h : memorySize < base + bs.length) :
    writeChecked m base bs = .error ⟨.memOutOfRange, BitVec.ofNat 16 (max base memorySize)⟩ := by
  rw [writeChecked, firstRaise_checkWrite, if_neg (by omega), if_pos ⟨hn, h⟩]

/-- All a checked write can do. -/
theorem writeChecked_cases {m m' : Memory} {base : Nat} {bs : List Byte} (h : writeChecked m base bs = .ok m') :
    m' = Memory.writeBytes m base bs ∧ (bs = [] ∨ firstWritable ≤ base ∧ base + bs.length ≤ memorySize) := by
  rcases Nat.eq_zero_or_pos bs.length with h0 | h0
  · obtain rfl := List.length_eq_zero_iff.mp h0
    exact ⟨(Except.ok.inj h).symm, .inl rfl⟩
  · by_cases h1 : base < firstWritable
    · rw [writeChecked_reserved m h0 h1] at h
      cases h
    · by_cases h2 : memorySize < base + bs.length
      · rw [writeChecked_outside m h0 (by omega) h2] at h
        cases h
      · rw [writeChecked_ok m (by omega) (by omega)] at h
        exact ⟨(Except.ok.inj h).symm, .inr ⟨by omega, by omega⟩⟩

/-- A checked write keeps the canonical form. -/
theorem wf_writeChecked {m m' : Memory} {base : Nat} {bs : List Byte} (hm : Memory.wf m = true)
    (h : writeChecked m base bs = .ok m') : Memory.wf m' = true := by
  obtain ⟨he, hb⟩ := writeChecked_cases h
  rw [he]
  rcases hb with hb | hb
  · rw [hb]
    exact hm
  · exact Memory.wf_writeBytes hm hb.2

/-! ## The fetch (R56) -/

/-- A fetch of two bytes in memory gives their word, the lower address first. -/
theorem fetch16_ok (m : Memory) {a : Nat} (h : a + 1 < memorySize) :
    fetch16 m a = .ok (wordOfBytes (Memory.read m a) (Memory.read m (a + 1))) := by
  have h1 : checkRead a = none := by unfold checkRead; rw [if_neg (by omega)]
  have h2 : checkRead (a + 1) = none := by unfold checkRead; rw [if_neg (by omega)]
  simp [fetch16, memRead, h1, h2]

/-- A fetch that needs a byte outside raises MEM_OUT_OF_RANGE at the lowest one. -/
theorem fetch16_error (m : Memory) {a : Nat} (h : memorySize ≤ a + 1) :
    fetch16 m a = .error ⟨.memOutOfRange, BitVec.ofNat 16 (max a memorySize)⟩ := by
  by_cases h1 : memorySize ≤ a
  · have : checkRead a = some ⟨.memOutOfRange, BitVec.ofNat 16 a⟩ := by unfold checkRead; rw [if_pos (by omega)]
    simp [fetch16, memRead, this, Nat.max_eq_left h1]
  · have e : a + 1 = memorySize := by omega
    have h1' : checkRead a = none := by unfold checkRead; rw [if_neg (by omega)]
    have h2 : checkRead (a + 1) = some ⟨.memOutOfRange, BitVec.ofNat 16 (a + 1)⟩ := by
      unfold checkRead; rw [if_pos (by omega)]
    have hmax : max a memorySize = a + 1 := by omega
    simp [fetch16, memRead, h1', h2, hmax]

end Sys2Proof.Machine
end

