-- ==== Sys2Proof/Laws/State.lean ====
section
/-! SUPPORT. One lemma per component and update, so that no later proof unfolds a record update; and what the
register file, the key states and the skips read as after an update. -/

namespace Sys2Proof.Machine

/-! ## setMem -/

@[simp] theorem State.setMem_mem (s : State) (m : Memory) : (s.setMem m).mem = m := rfl
@[simp] theorem State.setMem_V (s : State) (m : Memory) : (s.setMem m).V = s.V := rfl
@[simp] theorem State.setMem_I (s : State) (m : Memory) : (s.setMem m).I = s.I := rfl
@[simp] theorem State.setMem_pc (s : State) (m : Memory) : (s.setMem m).pc = s.pc := rfl
@[simp] theorem State.setMem_stack (s : State) (m : Memory) : (s.setMem m).stack = s.stack := rfl
@[simp] theorem State.setMem_DT (s : State) (m : Memory) : (s.setMem m).DT = s.DT := rfl
@[simp] theorem State.setMem_ST (s : State) (m : Memory) : (s.setMem m).ST = s.ST := rfl
@[simp] theorem State.setMem_key (s : State) (m : Memory) : (s.setMem m).key = s.key := rfl
@[simp] theorem State.setMem_fb (s : State) (m : Memory) : (s.setMem m).fb = s.fb := rfl
@[simp] theorem State.setMem_fault (s : State) (m : Memory) : (s.setMem m).fault = s.fault := rfl
@[simp] theorem State.setMem_config (s : State) (m : Memory) : (s.setMem m).config = s.config := rfl
@[simp] theorem State.setMem_randCount (s : State) (m : Memory) : (s.setMem m).randCount = s.randCount := rfl
@[simp] theorem State.setMem_readV (s : State) (m : Memory) (r : Reg) : (s.setMem m).readV r = s.readV r := rfl
@[simp] theorem State.setMem_readByte (s : State) (m : Memory) (i : Nat) : (s.setMem m).readByte i = Memory.read m i := rfl
@[simp] theorem State.setMem_keyDown (s : State) (m : Memory) (i : Nat) : (s.setMem m).keyDown i = s.keyDown i := rfl

/-! ## setI -/

@[simp] theorem State.setI_mem (s : State) (a : Word) : (s.setI a).mem = s.mem := rfl
@[simp] theorem State.setI_V (s : State) (a : Word) : (s.setI a).V = s.V := rfl
@[simp] theorem State.setI_I (s : State) (a : Word) : (s.setI a).I = a := rfl
@[simp] theorem State.setI_pc (s : State) (a : Word) : (s.setI a).pc = s.pc := rfl
@[simp] theorem State.setI_stack (s : State) (a : Word) : (s.setI a).stack = s.stack := rfl
@[simp] theorem State.setI_DT (s : State) (a : Word) : (s.setI a).DT = s.DT := rfl
@[simp] theorem State.setI_ST (s : State) (a : Word) : (s.setI a).ST = s.ST := rfl
@[simp] theorem State.setI_key (s : State) (a : Word) : (s.setI a).key = s.key := rfl
@[simp] theorem State.setI_fb (s : State) (a : Word) : (s.setI a).fb = s.fb := rfl
@[simp] theorem State.setI_fault (s : State) (a : Word) : (s.setI a).fault = s.fault := rfl
@[simp] theorem State.setI_config (s : State) (a : Word) : (s.setI a).config = s.config := rfl
@[simp] theorem State.setI_randCount (s : State) (a : Word) : (s.setI a).randCount = s.randCount := rfl
@[simp] theorem State.setI_readV (s : State) (a : Word) (r : Reg) : (s.setI a).readV r = s.readV r := rfl
@[simp] theorem State.setI_readByte (s : State) (a : Word) (i : Nat) : (s.setI a).readByte i = s.readByte i := rfl
@[simp] theorem State.setI_keyDown (s : State) (a : Word) (i : Nat) : (s.setI a).keyDown i = s.keyDown i := rfl

/-! ## setPc -/

@[simp] theorem State.setPc_mem (s : State) (a : Word) : (s.setPc a).mem = s.mem := rfl
@[simp] theorem State.setPc_V (s : State) (a : Word) : (s.setPc a).V = s.V := rfl
@[simp] theorem State.setPc_I (s : State) (a : Word) : (s.setPc a).I = s.I := rfl
@[simp] theorem State.setPc_pc (s : State) (a : Word) : (s.setPc a).pc = a := rfl
@[simp] theorem State.setPc_stack (s : State) (a : Word) : (s.setPc a).stack = s.stack := rfl
@[simp] theorem State.setPc_DT (s : State) (a : Word) : (s.setPc a).DT = s.DT := rfl
@[simp] theorem State.setPc_ST (s : State) (a : Word) : (s.setPc a).ST = s.ST := rfl
@[simp] theorem State.setPc_key (s : State) (a : Word) : (s.setPc a).key = s.key := rfl
@[simp] theorem State.setPc_fb (s : State) (a : Word) : (s.setPc a).fb = s.fb := rfl
@[simp] theorem State.setPc_fault (s : State) (a : Word) : (s.setPc a).fault = s.fault := rfl
@[simp] theorem State.setPc_config (s : State) (a : Word) : (s.setPc a).config = s.config := rfl
@[simp] theorem State.setPc_randCount (s : State) (a : Word) : (s.setPc a).randCount = s.randCount := rfl
@[simp] theorem State.setPc_readV (s : State) (a : Word) (r : Reg) : (s.setPc a).readV r = s.readV r := rfl
@[simp] theorem State.setPc_readByte (s : State) (a : Word) (i : Nat) : (s.setPc a).readByte i = s.readByte i := rfl
@[simp] theorem State.setPc_keyDown (s : State) (a : Word) (i : Nat) : (s.setPc a).keyDown i = s.keyDown i := rfl

/-! ## setStack -/

@[simp] theorem State.setStack_mem (s : State) (l : List Word) : (s.setStack l).mem = s.mem := rfl
@[simp] theorem State.setStack_V (s : State) (l : List Word) : (s.setStack l).V = s.V := rfl
@[simp] theorem State.setStack_I (s : State) (l : List Word) : (s.setStack l).I = s.I := rfl
@[simp] theorem State.setStack_pc (s : State) (l : List Word) : (s.setStack l).pc = s.pc := rfl
@[simp] theorem State.setStack_stack (s : State) (l : List Word) : (s.setStack l).stack = l := rfl
@[simp] theorem State.setStack_DT (s : State) (l : List Word) : (s.setStack l).DT = s.DT := rfl
@[simp] theorem State.setStack_ST (s : State) (l : List Word) : (s.setStack l).ST = s.ST := rfl
@[simp] theorem State.setStack_key (s : State) (l : List Word) : (s.setStack l).key = s.key := rfl
@[simp] theorem State.setStack_fb (s : State) (l : List Word) : (s.setStack l).fb = s.fb := rfl
@[simp] theorem State.setStack_fault (s : State) (l : List Word) : (s.setStack l).fault = s.fault := rfl
@[simp] theorem State.setStack_config (s : State) (l : List Word) : (s.setStack l).config = s.config := rfl
@[simp] theorem State.setStack_randCount (s : State) (l : List Word) : (s.setStack l).randCount = s.randCount := rfl
@[simp] theorem State.setStack_readV (s : State) (l : List Word) (r : Reg) : (s.setStack l).readV r = s.readV r := rfl
@[simp] theorem State.setStack_readByte (s : State) (l : List Word) (i : Nat) : (s.setStack l).readByte i = s.readByte i := rfl
@[simp] theorem State.setStack_keyDown (s : State) (l : List Word) (i : Nat) : (s.setStack l).keyDown i = s.keyDown i := rfl

/-! ## setDT -/

@[simp] theorem State.setDT_mem (s : State) (b : Byte) : (s.setDT b).mem = s.mem := rfl
@[simp] theorem State.setDT_V (s : State) (b : Byte) : (s.setDT b).V = s.V := rfl
@[simp] theorem State.setDT_I (s : State) (b : Byte) : (s.setDT b).I = s.I := rfl
@[simp] theorem State.setDT_pc (s : State) (b : Byte) : (s.setDT b).pc = s.pc := rfl
@[simp] theorem State.setDT_stack (s : State) (b : Byte) : (s.setDT b).stack = s.stack := rfl
@[simp] theorem State.setDT_DT (s : State) (b : Byte) : (s.setDT b).DT = b := rfl
@[simp] theorem State.setDT_ST (s : State) (b : Byte) : (s.setDT b).ST = s.ST := rfl
@[simp] theorem State.setDT_key (s : State) (b : Byte) : (s.setDT b).key = s.key := rfl
@[simp] theorem State.setDT_fb (s : State) (b : Byte) : (s.setDT b).fb = s.fb := rfl
@[simp] theorem State.setDT_fault (s : State) (b : Byte) : (s.setDT b).fault = s.fault := rfl
@[simp] theorem State.setDT_config (s : State) (b : Byte) : (s.setDT b).config = s.config := rfl
@[simp] theorem State.setDT_randCount (s : State) (b : Byte) : (s.setDT b).randCount = s.randCount := rfl
@[simp] theorem State.setDT_readV (s : State) (b : Byte) (r : Reg) : (s.setDT b).readV r = s.readV r := rfl
@[simp] theorem State.setDT_readByte (s : State) (b : Byte) (i : Nat) : (s.setDT b).readByte i = s.readByte i := rfl
@[simp] theorem State.setDT_keyDown (s : State) (b : Byte) (i : Nat) : (s.setDT b).keyDown i = s.keyDown i := rfl

/-! ## setST -/

@[simp] theorem State.setST_mem (s : State) (b : Byte) : (s.setST b).mem = s.mem := rfl
@[simp] theorem State.setST_V (s : State) (b : Byte) : (s.setST b).V = s.V := rfl
@[simp] theorem State.setST_I (s : State) (b : Byte) : (s.setST b).I = s.I := rfl
@[simp] theorem State.setST_pc (s : State) (b : Byte) : (s.setST b).pc = s.pc := rfl
@[simp] theorem State.setST_stack (s : State) (b : Byte) : (s.setST b).stack = s.stack := rfl
@[simp] theorem State.setST_DT (s : State) (b : Byte) : (s.setST b).DT = s.DT := rfl
@[simp] theorem State.setST_ST (s : State) (b : Byte) : (s.setST b).ST = b := rfl
@[simp] theorem State.setST_key (s : State) (b : Byte) : (s.setST b).key = s.key := rfl
@[simp] theorem State.setST_fb (s : State) (b : Byte) : (s.setST b).fb = s.fb := rfl
@[simp] theorem State.setST_fault (s : State) (b : Byte) : (s.setST b).fault = s.fault := rfl
@[simp] theorem State.setST_config (s : State) (b : Byte) : (s.setST b).config = s.config := rfl
@[simp] theorem State.setST_randCount (s : State) (b : Byte) : (s.setST b).randCount = s.randCount := rfl
@[simp] theorem State.setST_readV (s : State) (b : Byte) (r : Reg) : (s.setST b).readV r = s.readV r := rfl
@[simp] theorem State.setST_readByte (s : State) (b : Byte) (i : Nat) : (s.setST b).readByte i = s.readByte i := rfl
@[simp] theorem State.setST_keyDown (s : State) (b : Byte) (i : Nat) : (s.setST b).keyDown i = s.keyDown i := rfl

/-! ## setKey -/

@[simp] theorem State.setKey_mem (s : State) (k : Vector Bool 16) : (s.setKey k).mem = s.mem := rfl
@[simp] theorem State.setKey_V (s : State) (k : Vector Bool 16) : (s.setKey k).V = s.V := rfl
@[simp] theorem State.setKey_I (s : State) (k : Vector Bool 16) : (s.setKey k).I = s.I := rfl
@[simp] theorem State.setKey_pc (s : State) (k : Vector Bool 16) : (s.setKey k).pc = s.pc := rfl
@[simp] theorem State.setKey_stack (s : State) (k : Vector Bool 16) : (s.setKey k).stack = s.stack := rfl
@[simp] theorem State.setKey_DT (s : State) (k : Vector Bool 16) : (s.setKey k).DT = s.DT := rfl
@[simp] theorem State.setKey_ST (s : State) (k : Vector Bool 16) : (s.setKey k).ST = s.ST := rfl
@[simp] theorem State.setKey_key (s : State) (k : Vector Bool 16) : (s.setKey k).key = k := rfl
@[simp] theorem State.setKey_fb (s : State) (k : Vector Bool 16) : (s.setKey k).fb = s.fb := rfl
@[simp] theorem State.setKey_fault (s : State) (k : Vector Bool 16) : (s.setKey k).fault = s.fault := rfl
@[simp] theorem State.setKey_config (s : State) (k : Vector Bool 16) : (s.setKey k).config = s.config := rfl
@[simp] theorem State.setKey_randCount (s : State) (k : Vector Bool 16) : (s.setKey k).randCount = s.randCount := rfl
@[simp] theorem State.setKey_readV (s : State) (k : Vector Bool 16) (r : Reg) : (s.setKey k).readV r = s.readV r := rfl
@[simp] theorem State.setKey_readByte (s : State) (k : Vector Bool 16) (i : Nat) : (s.setKey k).readByte i = s.readByte i := rfl

/-! ## setFb -/

@[simp] theorem State.setFb_mem (s : State) (f : Framebuffer) : (s.setFb f).mem = s.mem := rfl
@[simp] theorem State.setFb_V (s : State) (f : Framebuffer) : (s.setFb f).V = s.V := rfl
@[simp] theorem State.setFb_I (s : State) (f : Framebuffer) : (s.setFb f).I = s.I := rfl
@[simp] theorem State.setFb_pc (s : State) (f : Framebuffer) : (s.setFb f).pc = s.pc := rfl
@[simp] theorem State.setFb_stack (s : State) (f : Framebuffer) : (s.setFb f).stack = s.stack := rfl
@[simp] theorem State.setFb_DT (s : State) (f : Framebuffer) : (s.setFb f).DT = s.DT := rfl
@[simp] theorem State.setFb_ST (s : State) (f : Framebuffer) : (s.setFb f).ST = s.ST := rfl
@[simp] theorem State.setFb_key (s : State) (f : Framebuffer) : (s.setFb f).key = s.key := rfl
@[simp] theorem State.setFb_fb (s : State) (f : Framebuffer) : (s.setFb f).fb = f := rfl
@[simp] theorem State.setFb_fault (s : State) (f : Framebuffer) : (s.setFb f).fault = s.fault := rfl
@[simp] theorem State.setFb_config (s : State) (f : Framebuffer) : (s.setFb f).config = s.config := rfl
@[simp] theorem State.setFb_randCount (s : State) (f : Framebuffer) : (s.setFb f).randCount = s.randCount := rfl
@[simp] theorem State.setFb_readV (s : State) (f : Framebuffer) (r : Reg) : (s.setFb f).readV r = s.readV r := rfl
@[simp] theorem State.setFb_readByte (s : State) (f : Framebuffer) (i : Nat) : (s.setFb f).readByte i = s.readByte i := rfl
@[simp] theorem State.setFb_keyDown (s : State) (f : Framebuffer) (i : Nat) : (s.setFb f).keyDown i = s.keyDown i := rfl

/-! ## setFault -/

@[simp] theorem State.setFault_mem (s : State) (f : Option FaultRecord) : (s.setFault f).mem = s.mem := rfl
@[simp] theorem State.setFault_V (s : State) (f : Option FaultRecord) : (s.setFault f).V = s.V := rfl
@[simp] theorem State.setFault_I (s : State) (f : Option FaultRecord) : (s.setFault f).I = s.I := rfl
@[simp] theorem State.setFault_pc (s : State) (f : Option FaultRecord) : (s.setFault f).pc = s.pc := rfl
@[simp] theorem State.setFault_stack (s : State) (f : Option FaultRecord) : (s.setFault f).stack = s.stack := rfl
@[simp] theorem State.setFault_DT (s : State) (f : Option FaultRecord) : (s.setFault f).DT = s.DT := rfl
@[simp] theorem State.setFault_ST (s : State) (f : Option FaultRecord) : (s.setFault f).ST = s.ST := rfl
@[simp] theorem State.setFault_key (s : State) (f : Option FaultRecord) : (s.setFault f).key = s.key := rfl
@[simp] theorem State.setFault_fb (s : State) (f : Option FaultRecord) : (s.setFault f).fb = s.fb := rfl
@[simp] theorem State.setFault_fault (s : State) (f : Option FaultRecord) : (s.setFault f).fault = f := rfl
@[simp] theorem State.setFault_config (s : State) (f : Option FaultRecord) : (s.setFault f).config = s.config := rfl
@[simp] theorem State.setFault_randCount (s : State) (f : Option FaultRecord) : (s.setFault f).randCount = s.randCount := rfl
@[simp] theorem State.setFault_readV (s : State) (f : Option FaultRecord) (r : Reg) : (s.setFault f).readV r = s.readV r := rfl
@[simp] theorem State.setFault_readByte (s : State) (f : Option FaultRecord) (i : Nat) : (s.setFault f).readByte i = s.readByte i := rfl
@[simp] theorem State.setFault_keyDown (s : State) (f : Option FaultRecord) (i : Nat) : (s.setFault f).keyDown i = s.keyDown i := rfl

/-! ## countDraw -/

@[simp] theorem State.countDraw_mem (s : State) : (s.countDraw).mem = s.mem := rfl
@[simp] theorem State.countDraw_V (s : State) : (s.countDraw).V = s.V := rfl
@[simp] theorem State.countDraw_I (s : State) : (s.countDraw).I = s.I := rfl
@[simp] theorem State.countDraw_pc (s : State) : (s.countDraw).pc = s.pc := rfl
@[simp] theorem State.countDraw_stack (s : State) : (s.countDraw).stack = s.stack := rfl
@[simp] theorem State.countDraw_DT (s : State) : (s.countDraw).DT = s.DT := rfl
@[simp] theorem State.countDraw_ST (s : State) : (s.countDraw).ST = s.ST := rfl
@[simp] theorem State.countDraw_key (s : State) : (s.countDraw).key = s.key := rfl
@[simp] theorem State.countDraw_fb (s : State) : (s.countDraw).fb = s.fb := rfl
@[simp] theorem State.countDraw_fault (s : State) : (s.countDraw).fault = s.fault := rfl
@[simp] theorem State.countDraw_config (s : State) : (s.countDraw).config = s.config := rfl
@[simp] theorem State.countDraw_randCount (s : State) : (s.countDraw).randCount = s.randCount + 1 := rfl
@[simp] theorem State.countDraw_readV (s : State) (r : Reg) : (s.countDraw).readV r = s.readV r := rfl
@[simp] theorem State.countDraw_readByte (s : State) (i : Nat) : (s.countDraw).readByte i = s.readByte i := rfl
@[simp] theorem State.countDraw_keyDown (s : State) (i : Nat) : (s.countDraw).keyDown i = s.keyDown i := rfl

/-! ## writeV -/

@[simp] theorem State.writeV_mem (s : State) (x : Reg) (b : Byte) : (s.writeV x b).mem = s.mem := rfl
@[simp] theorem State.writeV_V (s : State) (x : Reg) (b : Byte) : (s.writeV x b).V = s.V.set x.toNat b x.isLt := rfl
@[simp] theorem State.writeV_I (s : State) (x : Reg) (b : Byte) : (s.writeV x b).I = s.I := rfl
@[simp] theorem State.writeV_pc (s : State) (x : Reg) (b : Byte) : (s.writeV x b).pc = s.pc := rfl
@[simp] theorem State.writeV_stack (s : State) (x : Reg) (b : Byte) : (s.writeV x b).stack = s.stack := rfl
@[simp] theorem State.writeV_DT (s : State) (x : Reg) (b : Byte) : (s.writeV x b).DT = s.DT := rfl
@[simp] theorem State.writeV_ST (s : State) (x : Reg) (b : Byte) : (s.writeV x b).ST = s.ST := rfl
@[simp] theorem State.writeV_key (s : State) (x : Reg) (b : Byte) : (s.writeV x b).key = s.key := rfl
@[simp] theorem State.writeV_fb (s : State) (x : Reg) (b : Byte) : (s.writeV x b).fb = s.fb := rfl
@[simp] theorem State.writeV_fault (s : State) (x : Reg) (b : Byte) : (s.writeV x b).fault = s.fault := rfl
@[simp] theorem State.writeV_config (s : State) (x : Reg) (b : Byte) : (s.writeV x b).config = s.config := rfl
@[simp] theorem State.writeV_randCount (s : State) (x : Reg) (b : Byte) : (s.writeV x b).randCount = s.randCount := rfl
@[simp] theorem State.writeV_readByte (s : State) (x : Reg) (b : Byte) (i : Nat) : (s.writeV x b).readByte i = s.readByte i := rfl
@[simp] theorem State.writeV_keyDown (s : State) (x : Reg) (b : Byte) (i : Nat) : (s.writeV x b).keyDown i = s.keyDown i := rfl

/-! ## advance -/

@[simp] theorem State.advance_mem (s : State) : (s.advance).mem = s.mem := rfl
@[simp] theorem State.advance_V (s : State) : (s.advance).V = s.V := rfl
@[simp] theorem State.advance_I (s : State) : (s.advance).I = s.I := rfl
@[simp] theorem State.advance_pc (s : State) : (s.advance).pc = s.pc + 2#16 := rfl
@[simp] theorem State.advance_stack (s : State) : (s.advance).stack = s.stack := rfl
@[simp] theorem State.advance_DT (s : State) : (s.advance).DT = s.DT := rfl
@[simp] theorem State.advance_ST (s : State) : (s.advance).ST = s.ST := rfl
@[simp] theorem State.advance_key (s : State) : (s.advance).key = s.key := rfl
@[simp] theorem State.advance_fb (s : State) : (s.advance).fb = s.fb := rfl
@[simp] theorem State.advance_fault (s : State) : (s.advance).fault = s.fault := rfl
@[simp] theorem State.advance_config (s : State) : (s.advance).config = s.config := rfl
@[simp] theorem State.advance_randCount (s : State) : (s.advance).randCount = s.randCount := rfl
@[simp] theorem State.advance_readV (s : State) (r : Reg) : (s.advance).readV r = s.readV r := rfl
@[simp] theorem State.advance_readByte (s : State) (i : Nat) : (s.advance).readByte i = s.readByte i := rfl
@[simp] theorem State.advance_keyDown (s : State) (i : Nat) : (s.advance).keyDown i = s.keyDown i := rfl

/-! ## rewind -/

@[simp] theorem State.rewind_mem (s : State) : (s.rewind).mem = s.mem := rfl
@[simp] theorem State.rewind_V (s : State) : (s.rewind).V = s.V := rfl
@[simp] theorem State.rewind_I (s : State) : (s.rewind).I = s.I := rfl
@[simp] theorem State.rewind_pc (s : State) : (s.rewind).pc = s.pc - 2#16 := rfl
@[simp] theorem State.rewind_stack (s : State) : (s.rewind).stack = s.stack := rfl
@[simp] theorem State.rewind_DT (s : State) : (s.rewind).DT = s.DT := rfl
@[simp] theorem State.rewind_ST (s : State) : (s.rewind).ST = s.ST := rfl
@[simp] theorem State.rewind_key (s : State) : (s.rewind).key = s.key := rfl
@[simp] theorem State.rewind_fb (s : State) : (s.rewind).fb = s.fb := rfl
@[simp] theorem State.rewind_fault (s : State) : (s.rewind).fault = s.fault := rfl
@[simp] theorem State.rewind_config (s : State) : (s.rewind).config = s.config := rfl
@[simp] theorem State.rewind_randCount (s : State) : (s.rewind).randCount = s.randCount := rfl
@[simp] theorem State.rewind_readV (s : State) (r : Reg) : (s.rewind).readV r = s.readV r := rfl
@[simp] theorem State.rewind_readByte (s : State) (i : Nat) : (s.rewind).readByte i = s.readByte i := rfl
@[simp] theorem State.rewind_keyDown (s : State) (i : Nat) : (s.rewind).keyDown i = s.keyDown i := rfl

/-! ## Registers -/

/-- A read of the register just written, and of any other. -/
@[simp] theorem State.writeV_readV (s : State) (x : Reg) (b : Byte) (r : Reg) :
    (s.writeV x b).readV r = if r = x then b else s.readV r := by
  simp only [State.readV, State.writeV, Vector.getElem_set, BitVec.toNat_inj]
  simp only [eq_comm]

/-! ## Skips -/

@[simp] theorem State.skipIf_mem (s : State) (c : Bool) : (s.skipIf c).mem = s.mem := by
  cases c <;> rfl
@[simp] theorem State.skipIf_V (s : State) (c : Bool) : (s.skipIf c).V = s.V := by
  cases c <;> rfl
@[simp] theorem State.skipIf_I (s : State) (c : Bool) : (s.skipIf c).I = s.I := by
  cases c <;> rfl
@[simp] theorem State.skipIf_pc (s : State) (c : Bool) : (s.skipIf c).pc = if c then s.pc + 2#16 else s.pc := by
  cases c <;> rfl
@[simp] theorem State.skipIf_stack (s : State) (c : Bool) : (s.skipIf c).stack = s.stack := by
  cases c <;> rfl
@[simp] theorem State.skipIf_DT (s : State) (c : Bool) : (s.skipIf c).DT = s.DT := by
  cases c <;> rfl
@[simp] theorem State.skipIf_ST (s : State) (c : Bool) : (s.skipIf c).ST = s.ST := by
  cases c <;> rfl
@[simp] theorem State.skipIf_key (s : State) (c : Bool) : (s.skipIf c).key = s.key := by
  cases c <;> rfl
@[simp] theorem State.skipIf_fb (s : State) (c : Bool) : (s.skipIf c).fb = s.fb := by
  cases c <;> rfl
@[simp] theorem State.skipIf_fault (s : State) (c : Bool) : (s.skipIf c).fault = s.fault := by
  cases c <;> rfl
@[simp] theorem State.skipIf_config (s : State) (c : Bool) : (s.skipIf c).config = s.config := by
  cases c <;> rfl
@[simp] theorem State.skipIf_randCount (s : State) (c : Bool) : (s.skipIf c).randCount = s.randCount := by
  cases c <;> rfl
@[simp] theorem State.skipIf_readV (s : State) (c : Bool) (r : Reg) : (s.skipIf c).readV r = s.readV r := by
  cases c <;> rfl
@[simp] theorem State.skipIf_readByte (s : State) (c : Bool) (i : Nat) : (s.skipIf c).readByte i = s.readByte i := by
  cases c <;> rfl
@[simp] theorem State.skipIf_keyDown (s : State) (c : Bool) (i : Nat) : (s.skipIf c).keyDown i = s.keyDown i := by
  cases c <;> rfl

/-! ## Registers loaded from a list -/

@[simp] theorem State.loadRegistersFrom_mem (bs : List Byte) (s : State) (k : Nat) :
    (s.loadRegistersFrom k bs).mem = s.mem := by
  induction bs generalizing s k with
  | nil => rfl
  | cons b bs ih => simp [State.loadRegistersFrom, ih]
@[simp] theorem State.loadRegistersFrom_I (bs : List Byte) (s : State) (k : Nat) :
    (s.loadRegistersFrom k bs).I = s.I := by
  induction bs generalizing s k with
  | nil => rfl
  | cons b bs ih => simp [State.loadRegistersFrom, ih]
@[simp] theorem State.loadRegistersFrom_pc (bs : List Byte) (s : State) (k : Nat) :
    (s.loadRegistersFrom k bs).pc = s.pc := by
  induction bs generalizing s k with
  | nil => rfl
  | cons b bs ih => simp [State.loadRegistersFrom, ih]
@[simp] theorem State.loadRegistersFrom_stack (bs : List Byte) (s : State) (k : Nat) :
    (s.loadRegistersFrom k bs).stack = s.stack := by
  induction bs generalizing s k with
  | nil => rfl
  | cons b bs ih => simp [State.loadRegistersFrom, ih]
@[simp] theorem State.loadRegistersFrom_DT (bs : List Byte) (s : State) (k : Nat) :
    (s.loadRegistersFrom k bs).DT = s.DT := by
  induction bs generalizing s k with
  | nil => rfl
  | cons b bs ih => simp [State.loadRegistersFrom, ih]
@[simp] theorem State.loadRegistersFrom_ST (bs : List Byte) (s : State) (k : Nat) :
    (s.loadRegistersFrom k bs).ST = s.ST := by
  induction bs generalizing s k with
  | nil => rfl
  | cons b bs ih => simp [State.loadRegistersFrom, ih]
@[simp] theorem State.loadRegistersFrom_key (bs : List Byte) (s : State) (k : Nat) :
    (s.loadRegistersFrom k bs).key = s.key := by
  induction bs generalizing s k with
  | nil => rfl
  | cons b bs ih => simp [State.loadRegistersFrom, ih]
@[simp] theorem State.loadRegistersFrom_fb (bs : List Byte) (s : State) (k : Nat) :
    (s.loadRegistersFrom k bs).fb = s.fb := by
  induction bs generalizing s k with
  | nil => rfl
  | cons b bs ih => simp [State.loadRegistersFrom, ih]
@[simp] theorem State.loadRegistersFrom_fault (bs : List Byte) (s : State) (k : Nat) :
    (s.loadRegistersFrom k bs).fault = s.fault := by
  induction bs generalizing s k with
  | nil => rfl
  | cons b bs ih => simp [State.loadRegistersFrom, ih]
@[simp] theorem State.loadRegistersFrom_config (bs : List Byte) (s : State) (k : Nat) :
    (s.loadRegistersFrom k bs).config = s.config := by
  induction bs generalizing s k with
  | nil => rfl
  | cons b bs ih => simp [State.loadRegistersFrom, ih]
@[simp] theorem State.loadRegistersFrom_randCount (bs : List Byte) (s : State) (k : Nat) :
    (s.loadRegistersFrom k bs).randCount = s.randCount := by
  induction bs generalizing s k with
  | nil => rfl
  | cons b bs ih => simp [State.loadRegistersFrom, ih]

end Sys2Proof.Machine
end

