-- ==== Sys2Proof/Laws/Ops.lean ====
section
/-! SUPPORT. One lemma per shared operation that says all it can do: faults, stack, keys, registers in rows, the fetch and
decode part of a step, RESET, TICK and SET_KEYS. -/

namespace Sys2Proof.Machine

/-! ## Taking a fault (spec/40_cycle.md R116) -/

theorem enterFaulted_eq (word : Word) (r : Raise) (s : State) :
    enterFaulted word r s =
      .next { s with fault := some { cause := r.cause, pc := s.pc, word := word, info := r.info } } := rfl

theorem raiseFault_eq (i : Instr) (r : Raise) (s : State) :
    raiseFault i r s =
      .next { s with fault := some { cause := r.cause, pc := s.pc, word := encode i, info := r.info } } := rfl

/-! ## Stack (spec/10_state.md R27, R28) -/

theorem push_ok {config : Config} {stack : List Word} (v : Word) (h : config.stackLimit ≠ some stack.length) :
    push config stack v = .ok (v :: stack) := if_neg h

theorem push_full {config : Config} {stack : List Word} (v : Word) (h : config.stackLimit = some stack.length) :
    push config stack v = .error ⟨.stackOverflow, 0#16⟩ := if_pos h

@[simp] theorem pop_nil : pop [] = .error ⟨.stackUnderflow, 0#16⟩ := rfl

@[simp] theorem pop_cons (v : Word) (rest : List Word) : pop (v :: rest) = .ok (v, rest) := rfl

/-! ## Key numbers and keys (spec/46_timers_keys.md R280, R284) -/

theorem keyIndex_ok {v : Byte} (h : v.toNat < 16) : keyIndex v = .ok v.toNat := if_pos h

theorem keyIndex_error {v : Byte} (h : 16 ≤ v.toNat) :
    keyIndex v = .error ⟨.keyIndexOutOfRange, v.setWidth 16⟩ := if_neg (by omega)

/-- A key that is down is one of the 16. -/
theorem State.keyDown_lt {s : State} {k : Nat} (h : s.keyDown k = true) : k < 16 := by
  by_contra hn
  rw [State.keyDown, dif_neg hn] at h
  cases h

/-- The scan finds nothing exactly when no key of its range is down. -/
theorem State.firstKeyFrom_none (s : State) (k n : Nat) :
    s.firstKeyFrom k n = none ↔ ∀ j, k ≤ j → j < k + n → s.keyDown j = false := by
  induction n generalizing k with
  | zero =>
    simp only [State.firstKeyFrom, true_iff]
    intro j h1 h2
    omega
  | succ n ih =>
    unfold State.firstKeyFrom
    split
    · rename_i h
      constructor
      · intro hc
        cases hc
      · intro hc
        rw [hc k (Nat.le_refl k) (by omega)] at h
        cases h
    · rename_i h
      rw [ih]
      constructor
      · intro hc j h1 h2
        by_cases hj : j = k
        · rw [hj]
          simpa using h
        · exact hc j (by omega) (by omega)
      · intro hc j h1 h2
        exact hc j (by omega) (by omega)

/-- The scan finds the lowest key of its range that is down. -/
theorem State.firstKeyFrom_some (s : State) (k n j : Nat) :
    s.firstKeyFrom k n = some j ↔
      k ≤ j ∧ j < k + n ∧ s.keyDown j = true ∧ ∀ i, k ≤ i → i < j → s.keyDown i = false := by
  induction n generalizing k with
  | zero =>
    simp only [State.firstKeyFrom, reduceCtorEq, false_iff]
    omega
  | succ n ih =>
    unfold State.firstKeyFrom
    split
    · rename_i h
      constructor
      · intro hj
        rw [← Option.some.inj hj]
        exact ⟨Nat.le_refl k, by omega, h, fun i h1 h2 => by omega⟩
      · rintro ⟨h1, h2, h3, h4⟩
        by_cases hj : k = j
        · rw [hj]
        · have hk := h4 k (Nat.le_refl k) (by omega)
          rw [hk] at h
          cases h
    · rename_i h
      rw [ih]
      constructor
      · rintro ⟨h1, h2, h3, h4⟩
        refine ⟨by omega, by omega, h3, fun i h5 h6 => ?_⟩
        by_cases hi : i = k
        · rw [hi]
          simpa using h
        · exact h4 i (by omega) h6
      · rintro ⟨h1, h2, h3, h4⟩
        have hne : j ≠ k := by
          rintro rfl
          exact h h3
        exact ⟨by omega, by omega, h3, fun i h5 h6 => h4 i (by omega) h6⟩

theorem State.firstKeyDown_none (s : State) : s.firstKeyDown = none ↔ ∀ k, s.keyDown k = false := by
  rw [State.firstKeyDown, State.firstKeyFrom_none]
  constructor
  · intro h k
    by_cases hk : k < 16
    · exact h k (Nat.zero_le k) (by omega)
    · rw [State.keyDown, dif_neg hk]
  · intro h k _ _
    exact h k

theorem State.firstKeyDown_some (s : State) (k : Nat) :
    s.firstKeyDown = some k ↔ s.keyDown k = true ∧ ∀ j, j < k → s.keyDown j = false := by
  rw [State.firstKeyDown, State.firstKeyFrom_some]
  constructor
  · rintro ⟨-, -, h, h'⟩
    exact ⟨h, fun j hj => h' j (Nat.zero_le j) hj⟩
  · rintro ⟨h, h'⟩
    have := State.keyDown_lt h
    exact ⟨Nat.zero_le k, by omega, h, fun i _ hi => h' i hi⟩

/-! ## Registers in rows (FX55, FX65) -/

@[simp] theorem regOfNat_toNat (r : Reg) : regOfNat r.toNat = r := by
  simp [regOfNat]

theorem toNat_regOfNat {k : Nat} (h : k < 16) : (regOfNat k).toNat = k := by
  simp only [regOfNat, BitVec.toNat_ofNat]
  omega

theorem regOfNat_eq {k : Nat} (h : k < 16) (r : Reg) : r = regOfNat k ↔ r.toNat = k := by
  rw [← BitVec.toNat_inj, toNat_regOfNat h]

@[simp] theorem State.registersFrom_length (s : State) (k n : Nat) : (s.registersFrom k n).length = n := by
  induction n generalizing k with
  | zero => rfl
  | succ n ih => simp [State.registersFrom, ih]

theorem State.registersFrom_getElem? (s : State) (k n j : Nat) :
    (s.registersFrom k n)[j]? = if j < n then some (s.readV (regOfNat (k + j))) else none := by
  induction n generalizing k j with
  | zero => simp [State.registersFrom]
  | succ n ih =>
    cases j with
    | zero => simp [State.registersFrom]
    | succ j =>
      have : k + 1 + j = k + (j + 1) := by omega
      rw [State.registersFrom, List.getElem?_cons_succ, ih, this]
      simp

/-- The registers after a load: those in the list's range hold its bytes, the others what they held. -/
theorem State.loadRegistersFrom_readV (bs : List Byte) (s : State) (k : Nat) (h : k + bs.length ≤ 16) (r : Reg) :
    (s.loadRegistersFrom k bs).readV r =
      if k ≤ r.toNat then (bs[r.toNat - k]?).getD (s.readV r) else s.readV r := by
  induction bs generalizing s k with
  | nil => simp [State.loadRegistersFrom]
  | cons b bs ih =>
    rw [List.length_cons] at h
    rw [State.loadRegistersFrom, ih _ _ (by omega), State.writeV_readV]
    simp only [regOfNat_eq (show k < 16 by omega)]
    rcases Nat.lt_trichotomy r.toNat k with hlt | heq | hgt
    · rw [if_neg (by omega), if_neg (by omega), if_neg (by omega)]
    · rw [if_neg (by omega), if_pos heq, if_pos (by omega), heq]
      simp
    · have e : r.toNat - k = (r.toNat - (k + 1)) + 1 := by omega
      rw [if_pos (show k + 1 ≤ r.toNat by omega), if_neg (show ¬ r.toNat = k by omega),
        if_pos (show k ≤ r.toNat by omega), e, List.getElem?_cons_succ]

theorem State.loadRegistersFrom_keyDown (bs : List Byte) (s : State) (k i : Nat) :
    (s.loadRegistersFrom k bs).keyDown i = s.keyDown i := by
  simp [State.keyDown]

theorem State.loadRegistersFrom_readByte (bs : List Byte) (s : State) (k i : Nat) :
    (s.loadRegistersFrom k bs).readByte i = s.readByte i := by
  simp [State.readByte]

/-! ## Fetch and decode (spec/40_cycle.md R111) -/

/-- Nothing happens in FAULTED (R121). -/
theorem stepBy_faulted {run : Instr → State → Outcome} {s : State} (h : s.fault ≠ none) : stepBy run s = .next s := by
  unfold stepBy
  split
  · rfl
  · rename_i h'
    exact absurd h' h

/-- A fetch that needs a byte outside the memory faults (R56, R117). -/
theorem stepBy_fetchFault {run : Instr → State → Outcome} {s : State} (h : s.fault = none)
    (hp : memorySize ≤ s.pc.toNat + 1) :
    stepBy run s = enterFaulted 0#16 ⟨.memOutOfRange, BitVec.ofNat 16 (max s.pc.toNat memorySize)⟩ s := by
  simp [stepBy, h, fetch16_error _ hp]

/-- A word that is no instruction faults (R113). -/
theorem stepBy_invalid {run : Instr → State → Outcome} {s : State} {e : DecodeError} (h : s.fault = none)
    (hp : s.pc.toNat + 1 < memorySize)
    (hd : decodeWord (wordOfBytes (s.readByte s.pc.toNat) (s.readByte (s.pc.toNat + 1))) = .error e) :
    stepBy run s = enterFaulted (wordOfBytes (s.readByte s.pc.toNat) (s.readByte (s.pc.toNat + 1)))
      ⟨.invalidOpcode, 0#16⟩ s := by
  rw [State.readByte, State.readByte] at hd ⊢
  simp [stepBy, h, fetch16_ok _ hp, hd]

/-- A word that is an instruction is executed (R111). -/
theorem stepBy_run {run : Instr → State → Outcome} {s : State} {i : Instr} (h : s.fault = none)
    (hp : s.pc.toNat + 1 < memorySize)
    (hd : decodeWord (wordOfBytes (s.readByte s.pc.toNat) (s.readByte (s.pc.toNat + 1))) = .ok i) :
    stepBy run s = run i s := by
  rw [State.readByte, State.readByte] at hd
  simp [stepBy, h, fetch16_ok _ hp, hd]

/-- All a step can do. -/
theorem stepBy_cases (run : Instr → State → Outcome) (s : State) :
    (s.fault ≠ none ∧ stepBy run s = .next s) ∨
    (s.fault = none ∧ memorySize ≤ s.pc.toNat + 1 ∧
      stepBy run s = enterFaulted 0#16 ⟨.memOutOfRange, BitVec.ofNat 16 (max s.pc.toNat memorySize)⟩ s) ∨
    (s.fault = none ∧ s.pc.toNat + 1 < memorySize ∧ ∃ w e,
      w = wordOfBytes (s.readByte s.pc.toNat) (s.readByte (s.pc.toNat + 1)) ∧ decodeWord w = .error e ∧
      stepBy run s = enterFaulted w ⟨.invalidOpcode, 0#16⟩ s) ∨
    (s.fault = none ∧ s.pc.toNat + 1 < memorySize ∧ ∃ w i,
      w = wordOfBytes (s.readByte s.pc.toNat) (s.readByte (s.pc.toNat + 1)) ∧ decodeWord w = .ok i ∧
      stepBy run s = run i s) := by
  by_cases h : s.fault = none
  · by_cases hp : memorySize ≤ s.pc.toNat + 1
    · exact .inr (.inl ⟨h, hp, stepBy_fetchFault h hp⟩)
    · have hp' : s.pc.toNat + 1 < memorySize := by omega
      rcases hd : decodeWord (wordOfBytes (s.readByte s.pc.toNat) (s.readByte (s.pc.toNat + 1))) with e | i
      · exact .inr (.inr (.inl ⟨h, hp', _, e, rfl, hd, stepBy_invalid h hp' hd⟩))
      · exact .inr (.inr (.inr ⟨h, hp', _, i, rfl, hd, stepBy_run h hp' hd⟩))
  · exact .inl ⟨h, stepBy_faulted h⟩

/-! ## Host operations (spec/60_exceptions.md R309, R312, R313) -/

@[simp] theorem State.setKeys_keyDown (s : State) (keysIn : BitVec 16) (k : Nat) (h : k < 16) :
    (s.setKeys keysIn).keyDown k = keysIn.getLsbD k := by
  unfold State.setKeys
  rw [State.keyDown, dif_pos h]
  simp only [State.setKey_key]
  interval_cases k <;> rfl

theorem toNat_timerDown (t : Byte) : (timerDown t).toNat = t.toNat - 1 := by
  unfold timerDown
  split
  · rename_i h
    rw [h]
    rfl
  · rename_i h
    have : t.toNat ≠ 0 := fun h0 => h (BitVec.eq_of_toNat_eq h0)
    rw [BitVec.toNat_sub_of_le (by rw [BitVec.le_def]; simp; omega)]
    rfl

@[simp] theorem State.resetTo_mem (s : State) (image : List Byte) :
    (s.resetTo image).mem = Memory.writeBytes [] loadAddress image := rfl

end Sys2Proof.Machine
end

