-- ==== Sys2Proof/Laws/Exec.lean ====
section
/-! SUPPORT. What `exec`, `execWith`, a step and a host operation can answer, said once for all of them: an instruction takes
a fault entry or gives a next state that keeps the fault record, the keys and the configuration. -/

namespace Sys2Proof.Machine

/-- Every instruction takes a fault, by the one shared operation, or answers a next state. -/
theorem exec_cases (i : Instr) (s : State) :
    (∃ r, exec i s = raiseFault i r s) ∨
      ∃ t, exec i s = .next t ∧ t.fault = s.fault ∧ t.key = s.key ∧ t.config = s.config := by
  cases i
  all_goals try
    exact .inr ⟨_, rfl, by simp [State.writeResultThenFlag, State.writeFlagThenResult],
      by simp [State.writeResultThenFlag, State.writeFlagThenResult],
      by simp [State.writeResultThenFlag, State.writeFlagThenResult]⟩
  case returnSubroutine =>
    simp only [exec, execReturnSubroutine]
    split
    · exact .inl ⟨_, rfl⟩
    · exact .inr ⟨_, rfl, rfl, rfl, rfl⟩
  case callSubroutine =>
    simp only [exec, execCallSubroutine]
    split
    · exact .inl ⟨_, rfl⟩
    · exact .inr ⟨_, rfl, rfl, rfl, rfl⟩
  case draw =>
    simp only [exec, execDraw]
    split
    · exact .inl ⟨_, rfl⟩
    · exact .inr ⟨_, rfl, rfl, rfl, rfl⟩
  case skipIfKeyPressed =>
    simp only [exec, execSkipIfKeyPressed]
    split
    · exact .inl ⟨_, rfl⟩
    · exact .inr ⟨_, rfl, by simp, by simp, by simp⟩
  case skipIfKeyNotPressed =>
    simp only [exec, execSkipIfKeyNotPressed]
    split
    · exact .inl ⟨_, rfl⟩
    · exact .inr ⟨_, rfl, by simp, by simp, by simp⟩
  case getKeyBlocking =>
    simp only [exec, execGetKeyBlocking]
    split
    · exact .inr ⟨_, rfl, rfl, rfl, rfl⟩
    · exact .inr ⟨_, rfl, rfl, rfl, rfl⟩
  case storeBCD =>
    simp only [exec, execStoreBCD]
    split
    · exact .inl ⟨_, rfl⟩
    · exact .inr ⟨_, rfl, rfl, rfl, rfl⟩
  case dumpRegisters =>
    simp only [exec, execDumpRegisters]
    split
    · exact .inl ⟨_, rfl⟩
    · exact .inr ⟨_, rfl, rfl, rfl, rfl⟩
  case loadRegisters =>
    simp only [exec, execLoadRegisters]
    split
    · exact .inl ⟨_, rfl⟩
    · exact .inr ⟨_, rfl, by simp, by simp, by simp⟩

/-- Every instruction but CXNN ignores the random byte. -/
theorem execWith_eq (randIn : Byte) (i : Instr) (s : State) (h : ∀ x nn, i ≠ .random x nn) :
    execWith randIn i s = exec i s := by
  cases i <;> first | rfl | exact absurd rfl (h _ _)

/-- What `exec` can answer, `execWith` can. -/
theorem execWith_cases (randIn : Byte) (i : Instr) (s : State) :
    (∃ r, execWith randIn i s = raiseFault i r s) ∨
      ∃ t, execWith randIn i s = .next t ∧ t.fault = s.fault ∧ t.key = s.key ∧ t.config = s.config := by
  by_cases h : ∃ x nn, i = .random x nn
  · obtain ⟨x, nn, rfl⟩ := h
    exact .inr ⟨_, rfl, rfl, rfl, rfl⟩
  · rw [execWith_eq randIn i s (by intro x nn e; exact h ⟨x, nn, e⟩)]
    exact exec_cases i s

/-- A RUNNING step runs the instruction the state has next. -/
theorem stepBy_nextInstr {run : Instr → State → Outcome} {s : State} {i : Instr} (h0 : s.fault = none)
    (h : s.nextInstr = some i) : stepBy run s = run i s := by
  unfold State.nextInstr at h
  unfold stepBy
  rw [h0]
  dsimp only
  split at h
  · cases h
  · rename_i w hw
    cases hd : decodeWord w with
    | error e =>
      rw [hd] at h
      cases h
    | ok j =>
      rw [hd] at h
      cases h
      rfl

/-- All a host operation can do: RESET with an image that fits, a STEP, a TICK, a SET_KEYS, or nothing. -/
theorem hostStep_cases {op : HostOp} {s t : State} (h : hostStep op s = .next t) :
    (∃ image, op = .reset image ∧ image.length ≤ maxImageLength ∧ t = s.resetTo image) ∨
      (∃ randIn, op = .step randIn ∧ stepWith randIn s = .next t) ∨
      (op = .tick ∧ t = s.tick) ∨ (∃ keysIn, op = .setKeys keysIn ∧ t = s.setKeys keysIn) ∨ (op = .read ∧ t = s) := by
  cases op with
  | reset image =>
    rw [hostStep] at h
    split at h
    · cases h
      exact .inl ⟨image, rfl, ‹_›, rfl⟩
    · cases h
  | step randIn => exact .inr (.inl ⟨randIn, rfl, h⟩)
  | tick =>
    cases h
    exact .inr (.inr (.inl ⟨rfl, rfl⟩))
  | setKeys keysIn =>
    cases h
    exact .inr (.inr (.inr (.inl ⟨keysIn, rfl, rfl⟩)))
  | read =>
    cases h
    exact .inr (.inr (.inr (.inr ⟨rfl, rfl⟩)))

end Sys2Proof.Machine
end

