-- ==== Sys2Proof/Laws/PerInstr.lean ====
section
/-! SUPPORT. What is proved of every instruction as syntax, constructor by constructor. Family EncodesRow: an
instruction's word has the fixed bits of its own row of the opcode map (spec/30_encoding.md R92). -/

namespace Sys2Proof.Laws.EncodesRow

/-- The encoding of an instruction is selected by a row of the opcode map that bears its number. -/
def Statement (i : Instr) : Prop :=
  ∃ row ∈ opcodeMap, row.number = i.number ∧ row.selects (encode i) = true

/-- A row of the map with the instruction's number whose fixed bits its word has. -/
theorem of_row {i : Instr} (k : Nat) (row : OpcodeRow) (hk : opcodeMap[k]? = some row) (hn : row.number = i.number)
    (hs : encode i &&& row.mask = row.fixed) : Statement i :=
  ⟨row, List.mem_of_getElem? hk, hn, decide_eq_true hs⟩

theorem callMachineRoutine (nnn : Addr12) : Statement (.callMachineRoutine nnn) :=
  of_row 2 ⟨1, 0xF000#16, 0x0000#16⟩ rfl rfl ((and_F000 _).trans (by rw [encode, aField_encodeNNN]; rfl))

theorem clearScreen : Statement (.clearScreen) :=
  of_row 0 ⟨2, 0xFFFF#16, 0x00E0#16⟩ rfl rfl rfl

theorem returnSubroutine : Statement (.returnSubroutine) :=
  of_row 1 ⟨3, 0xFFFF#16, 0x00EE#16⟩ rfl rfl rfl

theorem jump (nnn : Addr12) : Statement (.jump nnn) :=
  of_row 3 ⟨4, 0xF000#16, 0x1000#16⟩ rfl rfl ((and_F000 _).trans (by rw [encode, aField_encodeNNN]; rfl))

theorem callSubroutine (nnn : Addr12) : Statement (.callSubroutine nnn) :=
  of_row 4 ⟨5, 0xF000#16, 0x2000#16⟩ rfl rfl ((and_F000 _).trans (by rw [encode, aField_encodeNNN]; rfl))

theorem skipIfEqValue (x : Reg) (nn : Byte) : Statement (.skipIfEqValue x nn) :=
  of_row 5 ⟨6, 0xF000#16, 0x3000#16⟩ rfl rfl ((and_F000 _).trans (by rw [encode, aField_encodeXNN]; rfl))

theorem skipIfNotEqValue (x : Reg) (nn : Byte) : Statement (.skipIfNotEqValue x nn) :=
  of_row 6 ⟨7, 0xF000#16, 0x4000#16⟩ rfl rfl ((and_F000 _).trans (by rw [encode, aField_encodeXNN]; rfl))

theorem skipIfEqRegister (x y : Reg) : Statement (.skipIfEqRegister x y) :=
  of_row 7 ⟨8, 0xF00F#16, 0x5000#16⟩ rfl rfl ((and_F00F _).trans (by rw [encode, aField_encodeXYN, nField_encodeXYN]; rfl))

theorem setRegisterToValue (x : Reg) (nn : Byte) : Statement (.setRegisterToValue x nn) :=
  of_row 8 ⟨9, 0xF000#16, 0x6000#16⟩ rfl rfl ((and_F000 _).trans (by rw [encode, aField_encodeXNN]; rfl))

theorem addRegisterValue (x : Reg) (nn : Byte) : Statement (.addRegisterValue x nn) :=
  of_row 9 ⟨10, 0xF000#16, 0x7000#16⟩ rfl rfl ((and_F000 _).trans (by rw [encode, aField_encodeXNN]; rfl))

theorem copy (x y : Reg) : Statement (.copy x y) :=
  of_row 10 ⟨11, 0xF00F#16, 0x8000#16⟩ rfl rfl ((and_F00F _).trans (by rw [encode, aField_encodeXYN, nField_encodeXYN]; rfl))

theorem orRegisters (x y : Reg) : Statement (.orRegisters x y) :=
  of_row 11 ⟨12, 0xF00F#16, 0x8001#16⟩ rfl rfl ((and_F00F _).trans (by rw [encode, aField_encodeXYN, nField_encodeXYN]; rfl))

theorem andRegisters (x y : Reg) : Statement (.andRegisters x y) :=
  of_row 12 ⟨13, 0xF00F#16, 0x8002#16⟩ rfl rfl ((and_F00F _).trans (by rw [encode, aField_encodeXYN, nField_encodeXYN]; rfl))

theorem xorRegisters (x y : Reg) : Statement (.xorRegisters x y) :=
  of_row 13 ⟨14, 0xF00F#16, 0x8003#16⟩ rfl rfl ((and_F00F _).trans (by rw [encode, aField_encodeXYN, nField_encodeXYN]; rfl))

theorem addRegisters (x y : Reg) : Statement (.addRegisters x y) :=
  of_row 14 ⟨15, 0xF00F#16, 0x8004#16⟩ rfl rfl ((and_F00F _).trans (by rw [encode, aField_encodeXYN, nField_encodeXYN]; rfl))

theorem subRegisters (x y : Reg) : Statement (.subRegisters x y) :=
  of_row 15 ⟨16, 0xF00F#16, 0x8005#16⟩ rfl rfl ((and_F00F _).trans (by rw [encode, aField_encodeXYN, nField_encodeXYN]; rfl))

theorem shiftRight (x y : Reg) : Statement (.shiftRight x y) :=
  of_row 16 ⟨17, 0xF00F#16, 0x8006#16⟩ rfl rfl ((and_F00F _).trans (by rw [encode, aField_encodeXYN, nField_encodeXYN]; rfl))

theorem reverseSub (x y : Reg) : Statement (.reverseSub x y) :=
  of_row 17 ⟨18, 0xF00F#16, 0x8007#16⟩ rfl rfl ((and_F00F _).trans (by rw [encode, aField_encodeXYN, nField_encodeXYN]; rfl))

theorem shiftLeft (x y : Reg) : Statement (.shiftLeft x y) :=
  of_row 18 ⟨19, 0xF00F#16, 0x800E#16⟩ rfl rfl ((and_F00F _).trans (by rw [encode, aField_encodeXYN, nField_encodeXYN]; rfl))

theorem skipIfNotEqRegister (x y : Reg) : Statement (.skipIfNotEqRegister x y) :=
  of_row 19 ⟨20, 0xF00F#16, 0x9000#16⟩ rfl rfl ((and_F00F _).trans (by rw [encode, aField_encodeXYN, nField_encodeXYN]; rfl))

theorem setIndex (nnn : Addr12) : Statement (.setIndex nnn) :=
  of_row 20 ⟨21, 0xF000#16, 0xA000#16⟩ rfl rfl ((and_F000 _).trans (by rw [encode, aField_encodeNNN]; rfl))

theorem jumpPlus (nnn : Addr12) : Statement (.jumpPlus nnn) :=
  of_row 21 ⟨22, 0xF000#16, 0xB000#16⟩ rfl rfl ((and_F000 _).trans (by rw [encode, aField_encodeNNN]; rfl))

theorem random (x : Reg) (nn : Byte) : Statement (.random x nn) :=
  of_row 22 ⟨23, 0xF000#16, 0xC000#16⟩ rfl rfl ((and_F000 _).trans (by rw [encode, aField_encodeXNN]; rfl))

theorem draw (x y : Reg) (n : Nibble) : Statement (.draw x y n) :=
  of_row 23 ⟨24, 0xF000#16, 0xD000#16⟩ rfl rfl ((and_F000 _).trans (by rw [encode, aField_encodeXYN]; rfl))

theorem skipIfKeyPressed (x : Reg) : Statement (.skipIfKeyPressed x) :=
  of_row 24 ⟨25, 0xF0FF#16, 0xE09E#16⟩ rfl rfl ((and_F0FF _).trans (by rw [encode, aField_encodeXNN, nnField_encodeXNN]; rfl))

theorem skipIfKeyNotPressed (x : Reg) : Statement (.skipIfKeyNotPressed x) :=
  of_row 25 ⟨26, 0xF0FF#16, 0xE0A1#16⟩ rfl rfl ((and_F0FF _).trans (by rw [encode, aField_encodeXNN, nnField_encodeXNN]; rfl))

theorem getDelay (x : Reg) : Statement (.getDelay x) :=
  of_row 26 ⟨27, 0xF0FF#16, 0xF007#16⟩ rfl rfl ((and_F0FF _).trans (by rw [encode, aField_encodeXNN, nnField_encodeXNN]; rfl))

theorem getKeyBlocking (x : Reg) : Statement (.getKeyBlocking x) :=
  of_row 27 ⟨28, 0xF0FF#16, 0xF00A#16⟩ rfl rfl ((and_F0FF _).trans (by rw [encode, aField_encodeXNN, nnField_encodeXNN]; rfl))

theorem setDelay (x : Reg) : Statement (.setDelay x) :=
  of_row 28 ⟨29, 0xF0FF#16, 0xF015#16⟩ rfl rfl ((and_F0FF _).trans (by rw [encode, aField_encodeXNN, nnField_encodeXNN]; rfl))

theorem setSound (x : Reg) : Statement (.setSound x) :=
  of_row 29 ⟨30, 0xF0FF#16, 0xF018#16⟩ rfl rfl ((and_F0FF _).trans (by rw [encode, aField_encodeXNN, nnField_encodeXNN]; rfl))

theorem addToIndex (x : Reg) : Statement (.addToIndex x) :=
  of_row 30 ⟨31, 0xF0FF#16, 0xF01E#16⟩ rfl rfl ((and_F0FF _).trans (by rw [encode, aField_encodeXNN, nnField_encodeXNN]; rfl))

theorem setIndexToSpriteChar (x : Reg) : Statement (.setIndexToSpriteChar x) :=
  of_row 31 ⟨32, 0xF0FF#16, 0xF029#16⟩ rfl rfl ((and_F0FF _).trans (by rw [encode, aField_encodeXNN, nnField_encodeXNN]; rfl))

theorem storeBCD (x : Reg) : Statement (.storeBCD x) :=
  of_row 32 ⟨33, 0xF0FF#16, 0xF033#16⟩ rfl rfl ((and_F0FF _).trans (by rw [encode, aField_encodeXNN, nnField_encodeXNN]; rfl))

theorem dumpRegisters (x : Reg) : Statement (.dumpRegisters x) :=
  of_row 33 ⟨34, 0xF0FF#16, 0xF055#16⟩ rfl rfl ((and_F0FF _).trans (by rw [encode, aField_encodeXNN, nnField_encodeXNN]; rfl))

theorem loadRegisters (x : Reg) : Statement (.loadRegisters x) :=
  of_row 34 ⟨35, 0xF0FF#16, 0xF065#16⟩ rfl rfl ((and_F0FF _).trans (by rw [encode, aField_encodeXNN, nnField_encodeXNN]; rfl))

end Sys2Proof.Laws.EncodesRow
end

