-- ==== Sys2Proof/Tests/Slice0.lean ====
section
/-! SUPPORT. The model's own tests. Expected results are those of the spec (spec/30_encoding.md R94, R97 and
spec/95_test_vectors.md, by the vector's name), never the model's. The witnesses at the end meet the hypotheses of the
statements in Certificates/Slice0/Obligations.lean, clause by clause, at the ends of the ranges. -/

namespace Sys2Proof.Tests

open Sys2Proof Sys2Proof.Machine Sys2Proof.Safety

/-! ## Small states -/

/-- The reset state with some registers set. -/
def regs (l : List (Reg × Byte)) : State := l.foldl (fun s p => s.writeV p.1 p.2) State.reset

/-- A state with bytes stored from an address on. -/
def bytes (s : State) (a : Nat) (bs : List Byte) : State := s.setMem (Memory.writeBytes s.mem a bs)

/-- A state with some keys down. -/
def keys (s : State) (down : List Nat) : State :=
  s.setKey (Vector.ofFn fun k : Fin 16 => decide (k.val ∈ down))

/-- A state with some pixels on. -/
def screen (s : State) (on : List (Nat × Nat)) : State :=
  s.setFb (on.foldl (fun f p => Framebuffer.setPixel f p.1 p.2 true) Framebuffer.clear)

/-- The columns of the on pixels of a row. -/
def onInRow (s : State) (y : Nat) : List Nat := (List.range 64).filter fun x => Framebuffer.pixel s.fb x y

/-- A state in FAULTED. -/
def faulted (s : State) : State := s.setFault (some ⟨.invalidOpcode, s.pc, 0x8008#16, 0#16⟩)

/-- The next state of an outcome, if there is one. -/
def next? : Outcome → Option State
  | .next t => some t
  | .fault _ => none
  | .refused _ => none

/-- One step of a word from a state. -/
def after (w : Nat) (s : State) : Option State := next? (step (s.withFetchWord 16 w))

/-- One step of a word from a state with a given random byte. -/
def afterWith (r : Byte) (w : Nat) (s : State) : Option State := next? (stepWith r (s.withFetchWord 16 w))

/-! ## WellFormed refuses what no word stands for (R86) -/

theorem test_wf_refuses_0NNN_at_the_words_of_00E0_and_00EE :
    (Instr.callMachineRoutine 0x0E0#12).wf = false ∧ (Instr.callMachineRoutine 0x0EE#12).wf = false ∧
      (Instr.callMachineRoutine 0x0E1#12).wf = true := by decide

/-! ## Decoding: every row of the table of R97, its example word written out -/

theorem test_decode_control :
    decodeTableWord 16 0x0123 = some (.callMachineRoutine 0x123#12) ∧
    decodeTableWord 16 0x00E0 = some .clearScreen ∧
    decodeTableWord 16 0x00EE = some .returnSubroutine ∧
    decodeTableWord 16 0x1204 = some (.jump 0x204#12) ∧
    decodeTableWord 16 0x2210 = some (.callSubroutine 0x210#12) ∧
    decodeTableWord 16 0xB300 = some (.jumpPlus 0x300#12) := by decide

theorem test_decode_skips :
    decodeTableWord 16 0x3000 = some (.skipIfEqValue 0x0#4 0x00#8) ∧
    decodeTableWord 16 0x4210 = some (.skipIfNotEqValue 0x2#4 0x10#8) ∧
    decodeTableWord 16 0x5120 = some (.skipIfEqRegister 0x1#4 0x2#4) ∧
    decodeTableWord 16 0x9120 = some (.skipIfNotEqRegister 0x1#4 0x2#4) := by decide

theorem test_decode_immediates :
    decodeTableWord 16 0x6005 = some (.setRegisterToValue 0x0#4 0x05#8) ∧
    decodeTableWord 16 0x7101 = some (.addRegisterValue 0x1#4 0x01#8) ∧
    decodeTableWord 16 0xC20F = some (.random 0x2#4 0x0F#8) ∧
    decodeTableWord 16 0xA234 = some (.setIndex 0x234#12) := by decide

theorem test_decode_family8 :
    decodeTableWord 16 0x8340 = some (.copy 0x3#4 0x4#4) ∧
    decodeTableWord 16 0x8341 = some (.orRegisters 0x3#4 0x4#4) ∧
    decodeTableWord 16 0x8342 = some (.andRegisters 0x3#4 0x4#4) ∧
    decodeTableWord 16 0x8343 = some (.xorRegisters 0x3#4 0x4#4) ∧
    decodeTableWord 16 0x8014 = some (.addRegisters 0x0#4 0x1#4) ∧
    decodeTableWord 16 0x8015 = some (.subRegisters 0x0#4 0x1#4) ∧
    decodeTableWord 16 0x8506 = some (.shiftRight 0x5#4 0x0#4) ∧
    decodeTableWord 16 0x8017 = some (.reverseSub 0x0#4 0x1#4) ∧
    decodeTableWord 16 0x850E = some (.shiftLeft 0x5#4 0x0#4) := by decide

theorem test_decode_draw_and_keys :
    decodeTableWord 16 0xD011 = some (.draw 0x0#4 0x1#4 0x1#4) ∧
    decodeTableWord 16 0xE49E = some (.skipIfKeyPressed 0x4#4) ∧
    decodeTableWord 16 0xE4A1 = some (.skipIfKeyNotPressed 0x4#4) := by decide

theorem test_decode_familyF :
    decodeTableWord 16 0xF607 = some (.getDelay 0x6#4) ∧
    decodeTableWord 16 0xF30A = some (.getKeyBlocking 0x3#4) ∧
    decodeTableWord 16 0xF615 = some (.setDelay 0x6#4) ∧
    decodeTableWord 16 0xF618 = some (.setSound 0x6#4) ∧
    decodeTableWord 16 0xF11E = some (.addToIndex 0x1#4) ∧
    decodeTableWord 16 0xF129 = some (.setIndexToSpriteChar 0x1#4) ∧
    decodeTableWord 16 0xF033 = some (.storeBCD 0x0#4) ∧
    decodeTableWord 16 0xF155 = some (.dumpRegisters 0x1#4) ∧
    decodeTableWord 16 0xF265 = some (.loadRegisters 0x2#4) := by decide

/-- DEC-3 to DEC-20, the words that decode to None among them. -/
theorem test_decode_vectors :
    decodeTableWord 16 0x0000 = some (.callMachineRoutine 0x000#12) ∧
    decodeTableWord 16 0x00E1 = some (.callMachineRoutine 0x0E1#12) ∧
    decodeTableWord 16 0x0FFF = some (.callMachineRoutine 0xFFF#12) ∧
    decodeTableWord 16 0x5231 = none ∧ decodeTableWord 16 0x9121 = none ∧ decodeTableWord 16 0x8008 = none ∧
    decodeTableWord 16 0x800F = none ∧ decodeTableWord 16 0xE000 = none ∧ decodeTableWord 16 0xE5A2 = none ∧
    decodeTableWord 16 0xF000 = none ∧ decodeTableWord 16 0xF01F = none := by decide

/-! ## Control transfer (§3 of the vectors) -/

theorem test_callMachineRoutine : (after 0x0123 State.reset).map (·.pc) = some 0x202#16 := by decide

theorem test_jump : (after 0x1204 (State.reset.setPc 0x20A#16)).map (·.pc) = some 0x204#16 := by decide

/-- CTL-5. -/
theorem test_callSubroutine :
    (after 0x2300 ((State.reset.setPc 0x210#16).setStack [0x206#16])).map (fun t => (t.pc, t.stack)) =
      some (0x300#16, [0x212#16, 0x206#16]) := by decide

/-- CTL-11. -/
theorem test_callSubroutine_full :
    (after 0x2400 { State.reset with config := ⟨some 2⟩, stack := [0x212#16, 0x206#16], pc := 0x300#16 }).map
      (fun t => (t.pc, t.stack, t.fault)) =
      some (0x300#16, [0x212#16, 0x206#16], some ⟨.stackOverflow, 0x300#16, 0x2400#16, 0#16⟩) := by decide

/-- CTL-6. -/
theorem test_returnSubroutine :
    (after 0x00EE ((State.reset.setPc 0x300#16).setStack [0x212#16, 0x206#16])).map (fun t => (t.pc, t.stack)) =
      some (0x212#16, [0x206#16]) := by decide

/-- CTL-7. -/
theorem test_returnSubroutine_empty :
    (after 0x00EE State.reset).map (fun t => (t.pc, t.fault)) =
      some (0x200#16, some ⟨.stackUnderflow, 0x200#16, 0x00EE#16, 0#16⟩) := by decide

/-- CTL-9, CTL-10. -/
theorem test_jumpPlus :
    (after 0xBF01 (regs [(0#4, 0xFF#8)])).map (·.pc) = some 0x1000#16 ∧
      (after 0xBFFF (regs [(0#4, 0xFF#8)])).map (·.pc) = some 0x10FE#16 := by decide

/-! ## Skips (§4) -/

/-- SKP-1, SKP-2. -/
theorem test_skipIfEqValue :
    (after 0x3000 (regs [(0#4, 0#8)])).map (·.pc) = some 0x204#16 ∧
      (after 0x3000 (regs [(0#4, 1#8)])).map (·.pc) = some 0x202#16 := by decide

/-- SKP-3, SKP-4. -/
theorem test_skipIfNotEqValue :
    (after 0x4210 (regs [(2#4, 0x10#8)])).map (·.pc) = some 0x202#16 ∧
      (after 0x4210 (regs [(2#4, 0x11#8)])).map (·.pc) = some 0x204#16 := by decide

/-- SKP-5, SKP-6. -/
theorem test_skipIfEqRegister :
    (after 0x5120 (regs [(1#4, 7#8), (2#4, 7#8)])).map (·.pc) = some 0x204#16 ∧
      (after 0x5120 (regs [(1#4, 7#8), (2#4, 8#8)])).map (·.pc) = some 0x202#16 := by decide

/-- SKP-7, SKP-8. -/
theorem test_skipIfNotEqRegister :
    (after 0x9120 (regs [(1#4, 7#8), (2#4, 8#8)])).map (·.pc) = some 0x204#16 ∧
      (after 0x9330 (regs [(3#4, 5#8)])).map (·.pc) = some 0x202#16 := by decide

/-- SKP-9, SKP-10. -/
theorem test_skipIfKeyPressed :
    (after 0xE49E (keys (regs [(4#4, 5#8)]) [5])).map (·.pc) = some 0x204#16 ∧
      (after 0xE49E (keys (regs [(4#4, 5#8)]) [4, 6])).map (·.pc) = some 0x202#16 := by decide

/-- SKP-13. -/
theorem test_skipIfKeyPressed_no_such_key :
    (after 0xE49E (regs [(4#4, 0x10#8)])).map (fun t => (t.pc, t.fault)) =
      some (0x200#16, some ⟨.keyIndexOutOfRange, 0x200#16, 0xE49E#16, 0x10#16⟩) := by decide

/-- SKP-11, SKP-12. -/
theorem test_skipIfKeyNotPressed :
    (after 0xE4A1 (regs [(4#4, 5#8)])).map (·.pc) = some 0x204#16 ∧
      (after 0xE4A1 (keys (regs [(4#4, 5#8)]) [5])).map (·.pc) = some 0x202#16 := by decide

/-! ## Arithmetic and logic (§5) -/

/-- ALU-1. -/
theorem test_setRegisterToValue : (after 0x6A5C State.reset).map (·.readV 0xA#4) = some 0x5C#8 := by decide

/-- ALU-2. -/
theorem test_addRegisterValue :
    (after 0x70FF (regs [(0#4, 0x02#8), (15#4, 0x07#8)])).map (fun t => (t.readV 0#4, t.readV 15#4)) =
      some (0x01#8, 0x07#8) := by decide

/-- ALU-4. -/
theorem test_copy :
    (after 0x8340 (regs [(4#4, 0x9C#8)])).map (fun t => (t.readV 3#4, t.readV 4#4)) = some (0x9C#8, 0x9C#8) := by decide

/-- ALU-5. -/
theorem test_orRegisters :
    (after 0x8341 (regs [(3#4, 0x0F#8), (4#4, 0xF0#8), (15#4, 1#8)])).map (fun t => (t.readV 3#4, t.readV 15#4)) =
      some (0xFF#8, 1#8) := by decide

/-- ALU-6. -/
theorem test_andRegisters :
    (after 0x8342 (regs [(3#4, 0x3C#8), (4#4, 0x0F#8), (15#4, 1#8)])).map (fun t => (t.readV 3#4, t.readV 15#4)) =
      some (0x0C#8, 1#8) := by decide

/-- ALU-7. -/
theorem test_xorRegisters :
    (after 0x8343 (regs [(3#4, 0x3C#8), (4#4, 0x0F#8)])).map (fun t => (t.readV 3#4, t.readV 15#4)) =
      some (0x33#8, 0#8) := by decide

/-- L1-1: 0x80 + 0x80. -/
theorem test_addRegisters :
    (after 0x8014 (regs [(0#4, 0x80#8), (1#4, 0x80#8)])).map (fun t => (t.readV 0#4, t.readV 15#4)) =
      some (0x00#8, 1#8) := by decide

/-- ALU-x15-1, ALU-x15-2. -/
theorem test_addRegisters_to_VF :
    (after 0x8F14 (regs [(15#4, 0xFF#8), (1#4, 1#8)])).map (·.readV 15#4) = some 1#8 ∧
      (after 0x8F14 (regs [(15#4, 0x01#8), (1#4, 1#8)])).map (·.readV 15#4) = some 0#8 := by decide

/-- L1-2: 3 - 5 and 7 - 7. -/
theorem test_subRegisters :
    (after 0x8015 (regs [(0#4, 3#8), (1#4, 5#8)])).map (fun t => (t.readV 0#4, t.readV 15#4)) = some (0xFE#8, 0#8) ∧
      (after 0x8015 (regs [(0#4, 7#8), (1#4, 7#8)])).map (fun t => (t.readV 0#4, t.readV 15#4)) =
        some (0x00#8, 1#8) := by decide

/-- ALU-11: y = 15. -/
theorem test_subRegisters_from_VF :
    (after 0x80F5 (regs [(0#4, 0x10#8), (15#4, 1#8)])).map (fun t => (t.readV 0#4, t.readV 15#4)) =
      some (0x0F#8, 1#8) := by decide

/-- ALU-14: Vy is ignored. -/
theorem test_shiftRight :
    (after 0x8566 (regs [(5#4, 0x03#8), (6#4, 0xFF#8)])).map (fun t => (t.readV 5#4, t.readV 15#4)) =
      some (0x01#8, 1#8) := by decide

/-- ALU-x15-6. -/
theorem test_shiftRight_of_VF : (after 0x8F06 (regs [(15#4, 3#8)])).map (·.readV 15#4) = some 1#8 := by decide

/-- ALU-12, ALU-13. -/
theorem test_reverseSub :
    (after 0x8017 (regs [(0#4, 3#8), (1#4, 5#8)])).map (fun t => (t.readV 0#4, t.readV 15#4)) = some (0x02#8, 1#8) ∧
      (after 0x8017 (regs [(0#4, 1#8), (1#4, 0#8)])).map (fun t => (t.readV 0#4, t.readV 15#4)) =
        some (0xFF#8, 0#8) := by decide

/-- ALU-15. -/
theorem test_shiftLeft :
    (after 0x850E (regs [(5#4, 0x81#8)])).map (fun t => (t.readV 5#4, t.readV 15#4)) = some (0x02#8, 1#8) := by decide

/-- ALU-x15-9. -/
theorem test_shiftLeft_of_VF : (after 0x8F0E (regs [(15#4, 0x40#8)])).map (·.readV 15#4) = some 0x80#8 := by decide

/-- ALU-16, ALU-17. -/
theorem test_random :
    (afterWith 0xA7#8 0xC20F State.reset).map (·.readV 2#4) = some 0x07#8 ∧
      (afterWith 0xA7#8 0xC200 (regs [(2#4, 9#8)])).map (·.readV 2#4) = some 0x00#8 := by decide

/-! ## Index register and memory (§6) -/

/-- MEM-1. -/
theorem test_setIndex : (after 0xA234 State.reset).map (·.I) = some 0x234#16 := by decide

/-- MEM-3, MEM-4. -/
theorem test_addToIndex :
    (after 0xF11E ((regs [(1#4, 1#8)]).setI 0x0FFF#16)).map (·.I) = some 0x1000#16 ∧
      (after 0xF11E ((regs [(1#4, 1#8)]).setI 0xFFFF#16)).map (·.I) = some 0x0000#16 := by decide

/-- MEM-5. -/
theorem test_setIndexToSpriteChar :
    (after 0xF129 ((regs [(1#4, 1#8)]).setI 0x234#16)).map (fun t => (t.I, t.pc)) = some (0x234#16, 0x202#16) := by
  decide

/-- R223's example: 0xFE = 254. -/
theorem test_storeBCD :
    (after 0xF033 ((regs [(0#4, 0xFE#8)]).setI 0x300#16)).map
      (fun t => (t.readByte 0x300, t.readByte 0x301, t.readByte 0x302)) = some (2#8, 5#8, 4#8) := by decide

/-- MEM-10, MEM-11. -/
theorem test_storeBCD_faults :
    (after 0xF033 ((regs [(0#4, 123#8)]).setI 0xFFE#16)).map (fun t => (t.fault, t.readByte 0xFFE)) =
      some (some ⟨.memOutOfRange, 0x200#16, 0xF033#16, 0x1000#16⟩, 0#8) ∧
    (after 0xF033 ((regs [(0#4, 123#8)]).setI 0x1FF#16)).map (·.fault) =
      some (some ⟨.reservedWrite, 0x200#16, 0xF033#16, 0x1FF#16⟩) := by decide

/-- MEM-12. -/
theorem test_dumpRegisters :
    (after 0xF155 ((regs [(0#4, 0x11#8), (1#4, 0x22#8), (2#4, 0x33#8)]).setI 0x234#16)).map
      (fun t => (t.readByte 0x234, t.readByte 0x235, t.readByte 0x236, t.I)) =
      some (0x11#8, 0x22#8, 0#8, 0x234#16) := by decide

/-- MEM-14, MEM-15. -/
theorem test_dumpRegisters_faults :
    (after 0xFF55 (State.reset.setI 0xFF8#16)).map (·.fault) =
      some (some ⟨.memOutOfRange, 0x200#16, 0xFF55#16, 0x1000#16⟩) ∧
    (after 0xF055 (State.reset.setI 0x100#16)).map (·.fault) =
      some (some ⟨.reservedWrite, 0x200#16, 0xF055#16, 0x100#16⟩) := by decide

/-- MEM-16. -/
theorem test_loadRegisters :
    (after 0xF265 (bytes ((regs [(3#4, 0x77#8)]).setI 0x300#16) 0x300 [2#8, 5#8, 4#8])).map
      (fun t => (t.readV 0#4, t.readV 1#4, t.readV 2#4, t.readV 3#4)) = some (2#8, 5#8, 4#8, 0x77#8) := by decide

/-- MEM-18. -/
theorem test_loadRegisters_fault :
    (after 0xF165 ((regs [(0#4, 0x55#8)]).setI 0xFFF#16)).map (fun t => (t.fault, t.readV 0#4)) =
      some (some ⟨.memOutOfRange, 0x200#16, 0xF165#16, 0x1000#16⟩, 0x55#8) := by decide

/-! ## Display (§7) -/

/-- DSP-13. -/
theorem test_clearScreen :
    (after 0x00E0 (screen (regs [(15#4, 1#8)]) [(5, 5), (63, 31)])).map
      (fun t => (onInRow t 5, onInRow t 31, t.readV 15#4)) = some ([], [], 1#8) := by decide

/-- DSP-9. -/
theorem test_draw_clips_and_collides :
    (after 0xD011 (bytes ((screen (regs [(0#4, 62#8), (1#4, 1#8)]) [(62, 1)]).setI 0x300#16) 0x300 [0xC3#8])).map
      (fun t => (onInRow t 1, t.readV 15#4)) = some ([63], 1#8) := by decide

/-- DSP-12: y = 15. -/
theorem test_draw_at_the_old_VF :
    (after 0xD0F1 (bytes ((regs [(15#4, 8#8)]).setI 0x300#16) 0x300 [0x80#8])).map
      (fun t => (onInRow t 8, onInRow t 0, t.readV 15#4)) = some ([0], [], 0#8) := by decide

/-! ## Timers, keys and the host (§8, §9) -/

/-- TMR-2. -/
theorem test_getDelay :
    (after 0xF607 (State.reset.setDT 0x3C#8)).map (fun t => (t.readV 6#4, t.DT)) = some (0x3C#8, 0x3C#8) := by decide

/-- KEY-1. -/
theorem test_getKeyBlocking_waits :
    (after 0xF30A State.reset).map (fun t => (t.pc, t.readV 3#4)) = some (0x200#16, 0#8) ∧
      (after 0xF30A State.reset).map (stepResult (State.reset.withFetchWord 16 0xF30A)) = some .waiting := by decide

/-- KEY-2. -/
theorem test_getKeyBlocking :
    (after 0xF30A (keys State.reset [9, 5])).map (fun t => (t.pc, t.readV 3#4)) = some (0x202#16, 5#8) := by decide

/-- TMR-1. -/
theorem test_setDelay :
    (after 0xF615 (regs [(6#4, 0x3C#8)])).map (fun t => (t.DT, t.ST)) = some (0x3C#8, 0#8) := by decide

/-- TMR-3. -/
theorem test_setSound :
    (after 0xF618 (regs [(6#4, 0x10#8)])).map (fun t => (t.DT, t.ST)) = some (0#8, 0x10#8) := by decide

/-- TMR-5's second TICK, TMR-6. -/
theorem test_tick :
    (next? (hostStep .tick (State.reset.setST 1#8))).map (fun t => (t.DT, t.ST)) = some (0#8, 0#8) ∧
      (next? (hostStep .tick ((faulted State.reset).setDT 5#8))).map (fun t => (t.DT, t.status)) =
        some (4#8, .faulted) := by decide

/-- KEY-4. -/
theorem test_setKeys :
    (next? (hostStep (.setKeys 0x8001#16) (keys State.reset [3]))).map
      (fun t => (List.range 16).filter (t.keyDown ·)) = some [0, 15] := by decide

/-- FLT-1. -/
theorem test_invalid_word :
    (after 0x8008 State.reset).map (fun t => (t.pc, t.fault)) =
      some (0x200#16, some ⟨.invalidOpcode, 0x200#16, 0x8008#16, 0#16⟩) := by decide

/-- FLT-3, and R350 for a two-byte image. -/
theorem test_reset :
    (next? (hostStep (.reset [0xA2#8, 0x34#8]) ((faulted State.reset).setPc 0x300#16))).map
      (fun t => (t.status, t.pc, t.readByte 0x200, t.readByte 0x201)) =
      some (.running, 0x200#16, 0xA2#8, 0x34#8) := by decide

/-- FLT-4 and CTL-15. -/
theorem test_fetch_outside_memory :
    (next? (step (State.reset.setPc 0x1000#16))).map (·.fault) =
      some (some ⟨.memOutOfRange, 0x1000#16, 0#16, 0x1000#16⟩) ∧
    (next? (step (State.reset.setPc 0xFFF#16))).map (·.fault) =
      some (some ⟨.memOutOfRange, 0xFFF#16, 0#16, 0x1000#16⟩) := by decide

/-! ## Witnesses: the hypotheses of each statement can be met -/

/-- A memory with bytes at the ends of the address space, in its canonical form. -/
def edges : Memory := [(0, 7#8), (0x1FF, 1#8), (0x200, 2#8), (0xFFF, 9#8)]

/-- A state with a program word, an image's bytes and a call under way. -/
def busy : State :=
  { bytes (regs [(0#4, 5#8), (1#4, 0x10#8), (15#4, 0xFF#8)]) 0x200 [0xD0#8, 0x11#8] with
    I := 0x300#16, stack := [0x204#16], DT := 3#8, ST := 1#8, config := ⟨some 2⟩ }

/-- An outcome that is a next state is one for some state. -/
theorem answers {o : Outcome} (h : (next? o).isSome = true) : ∃ t, o = .next t := by
  cases o with
  | next t => exact ⟨t, rfl⟩
  | fault r => cases h
  | refused r => cases h

theorem witness_DecodeOfEncodeIsTheInstruction :
    (Instr.callMachineRoutine 0x0E1#12).wf = true ∧ (Instr.callMachineRoutine 0x000#12).wf = true ∧
      (Instr.draw 0xF#4 0x0#4 0xF#4).wf = true ∧ (Instr.loadRegisters 0xF#4).wf = true := by decide

theorem witness_EncodeOfDecodeIsTheWord :
    decodeWord 0x0000#16 = .ok (.callMachineRoutine 0#12) ∧ decodeWord 0xFF65#16 = .ok (.loadRegisters 0xF#4) :=
  ⟨rfl, rfl⟩

theorem witness_MachineRoutineOnlyAdvancesPc :
    0x00E1#16 &&& 0xF000#16 = 0x0000#16 ∧ 0x00E1#16 ≠ 0x00E0#16 ∧ 0x00E1#16 ≠ 0x00EE#16 ∧
      0x0FFF#16 &&& 0xF000#16 = 0x0000#16 := by decide

theorem witness_ReturnPopsTheStackIntoPc :
    busy.stack = 0x204#16 :: [] ∧ (busy.setStack [0xFFFF#16, 0x204#16]).stack = 0xFFFF#16 :: [0x204#16] ∧
      State.reset.stack = [] := by decide

theorem witness_JumpSetsPc : 0x1FFF#16 &&& 0xF000#16 = 0x1000#16 := by decide

theorem witness_CallPushesTheReturnAddress :
    0x2210#16 &&& 0xF000#16 = 0x2000#16 ∧
    State.reset.config.stackLimit ≠ some State.reset.stack.length ∧
    busy.config.stackLimit ≠ some busy.stack.length ∧
    (busy.setStack [0x206#16, 0x204#16]).config.stackLimit = some (busy.setStack [0x206#16, 0x204#16]).stack.length := by
  decide

theorem witness_JumpPlusAddsV0 : 0xBFFF#16 &&& 0xF000#16 = 0xB000#16 := by decide

theorem witness_ImmediateSkipsTestVx :
    0x3F01#16 &&& 0xF000#16 = 0x3000#16 ∧ 0x4210#16 &&& 0xF000#16 = 0x4000#16 := by decide

theorem witness_RegisterSkipsCompareVxVy :
    0x5120#16 &&& 0xF00F#16 = 0x5000#16 ∧ 0x9330#16 &&& 0xF00F#16 = 0x9000#16 ∧
      (aField 0x5231#16 = 0x5#4 ∧ nField 0x5231#16 ≠ 0x0#4) ∧ aField 0x912F#16 = 0x9#4 ∧ nField 0x912F#16 ≠ 0x0#4 := by
  decide

theorem witness_SetRegisterWritesImmediate : 0x6A5C#16 &&& 0xF000#16 = 0x6000#16 := by decide

theorem witness_AddImmediateWrapsWithoutFlag : 0x70FF#16 &&& 0xF000#16 = 0x7000#16 := by decide

theorem witness_CopyMovesVyToVx : 0x8340#16 &&& 0xF00F#16 = 0x8000#16 := by decide

theorem witness_LogicIsBitwiseWithoutFlag :
    0x8341#16 &&& 0xF00F#16 = 0x8001#16 ∧ 0x8342#16 &&& 0xF00F#16 = 0x8002#16 ∧
      0x8343#16 &&& 0xF00F#16 = 0x8003#16 := by decide

theorem witness_AddRegistersSetsCarry : 0x8F14#16 &&& 0xF00F#16 = 0x8004#16 ∧ 0x0#4 ≠ 15#4 := by decide

theorem witness_SubtractionsSetNoBorrow :
    0x8015#16 &&& 0xF00F#16 = 0x8005#16 ∧ 0x8F17#16 &&& 0xF00F#16 = 0x8007#16 ∧ 0xE#4 ≠ 15#4 := by decide

theorem witness_ShiftsSetTheBitShiftedOut :
    0x8506#16 &&& 0xF00F#16 = 0x8006#16 ∧ 0x8F0E#16 &&& 0xF00F#16 = 0x800E#16 ∧ 0xE#4 ≠ 15#4 := by decide

theorem witness_RandomMasksTheDrawnByte : 0xC20F#16 &&& 0xF000#16 = 0xC000#16 := by decide

theorem witness_SetIndexWritesAddress : 0xA234#16 &&& 0xF000#16 = 0xA000#16 := by decide

theorem witness_AddToIndexWrapsAtSixteenBits : 0xF11E#16 &&& 0xF0FF#16 = 0xF01E#16 := by decide

theorem witness_SpriteCharOnlyAdvancesPc : 0xF729#16 &&& 0xF0FF#16 = 0xF029#16 := by decide

/-- I at the ends of the range that completes, and beyond each. -/
theorem witness_StoreBcdStoresThreeDigits :
    0xF033#16 &&& 0xF0FF#16 = 0xF033#16 ∧
    (Memory.wf edges = true ∧ 0x200 ≤ ((State.reset.setMem edges).setI 0x200#16).dataBase ∧
      ((State.reset.setMem edges).setI 0x200#16).dataBase + 3 ≤ 0x1000) ∧
    (0x200 ≤ (State.reset.setI 0xFFD#16).dataBase ∧ (State.reset.setI 0xFFD#16).dataBase + 3 ≤ 0x1000) ∧
    (State.reset.setI 0x1FF#16).dataBase < 0x200 ∧
    0x1000 < (State.reset.setI 0xFFE#16).dataBase + 3 ∧ 0x1000 < (State.reset.setI 0xFFFF#16).dataBase + 3 := by decide

/-- One register and all sixteen, at the ends of the range that completes, and beyond each. -/
theorem witness_DumpRegistersStoresV0ToVx :
    0xF155#16 &&& 0xF0FF#16 = 0xF055#16 ∧
    (Memory.wf edges = true ∧ 0x200 ≤ ((State.reset.setMem edges).setI 0x200#16).dataBase ∧
      ((State.reset.setMem edges).setI 0x200#16).dataBase + (0xF#4).toNat < 0x1000) ∧
    (0x200 ≤ (State.reset.setI 0xFFF#16).dataBase ∧ (State.reset.setI 0xFFF#16).dataBase + (0x0#4).toNat < 0x1000) ∧
    (State.reset.setI 0x1FF#16).dataBase < 0x200 ∧
    0x1000 ≤ (State.reset.setI 0xFF1#16).dataBase + (0xF#4).toNat ∧
    0x1000 ≤ (State.reset.setI 0x1000#16).dataBase + (0x0#4).toNat := by decide

theorem witness_LoadRegistersLoadsV0ToVx :
    0xF265#16 &&& 0xF0FF#16 = 0xF065#16 ∧
    (State.reset.setI 0x000#16).dataBase + (0xF#4).toNat < 0x1000 ∧
    (State.reset.setI 0xFF0#16).dataBase + (0xF#4).toNat < 0x1000 ∧
    ((0x0#4).toNat ≤ (0x0#4).toNat ∧ (0x0#4).toNat < (0x1#4).toNat) ∧
    0x1000 ≤ (State.reset.setI 0xFF1#16).dataBase + (0xF#4).toNat := by decide

/-- A pixel of the grid, and a last one. -/
theorem witness_BlitXorsTheClippedSprite :
    (0 < 64 ∧ 0 < 32) ∧ spriteBit (fun k => [0xC3#8].getD k 0#8) 1 (126 % 64) (33 % 32) 63 1 = true ∧
      Framebuffer.pixel (screen State.reset [(63, 1)]).fb 63 1 = true := by decide

/-- A sprite of one row, at column 5 and row 16, of which one pixel is on already. -/
def spriteOverPixel : State := screen (bytes busy 0x300 [0xC0#8]) [(5, 16)]

/-- No row, rows up to the last byte, and rows beyond it; a collision and none. -/
theorem witness_DrawXorsTheSpriteAndSetsCollision :
    0xD011#16 &&& 0xF000#16 = 0xD000#16 ∧
    (State.reset.setI 0xFFF#16).dataBase + (0x1#4).toNat ≤ 0x1000 ∧
    (spriteBit (spriteRow spriteOverPixel) (0x1#4).toNat (5 % 64) (16 % 32) 5 16 = true ∧
      Framebuffer.pixel spriteOverPixel.fb 5 16 = true) ∧
    (spriteBit (spriteRow spriteOverPixel) (0x1#4).toNat (5 % 64) (16 % 32) 6 16 = true ∧
      Framebuffer.pixel spriteOverPixel.fb 6 16 = false) ∧
    (0 < (0x2#4).toNat ∧ 0x1000 < (State.reset.setI 0xFFF#16).dataBase + (0x2#4).toNat) ∧
    (0 < (0x1#4).toNat ∧ 0x1000 < (State.reset.setI 0xFFFF#16).dataBase + (0x1#4).toNat) := by decide

theorem witness_DrawingTwiceRestoresTheScreen :
    ∃ t u : State, (spriteOverPixel.dataBase + (0x1#4).toNat ≤ 0x1000) ∧
      exec (.draw 0x0#4 0x1#4 0x1#4) spriteOverPixel = .next t ∧ t.readV 0x0#4 = spriteOverPixel.readV 0x0#4 ∧
      t.readV 0x1#4 = spriteOverPixel.readV 0x1#4 ∧ exec (.draw 0x0#4 0x1#4 0x1#4) t = .next u :=
  ⟨_, _, by decide, rfl, by decide, by decide, rfl⟩

theorem witness_DrawOnAClearScreenNeverCollides :
    ∃ t u : State, (busy.dataBase + (0xF#4).toNat ≤ 0x1000) ∧ exec .clearScreen busy = .next t ∧
      exec (.draw 0x0#4 0x1#4 0xF#4) t = .next u :=
  ⟨_, _, by decide, rfl, rfl⟩

/-- The last key, down and up, and the first number that is no key. -/
theorem witness_KeySkipsTestTheKey :
    0xE59E#16 &&& 0xF0FF#16 = 0xE09E#16 ∧ 0xE4A1#16 &&& 0xF0FF#16 = 0xE0A1#16 ∧
    ((regs [(4#4, 15#8)]).readV 4#4).toNat < 16 ∧ 16 ≤ ((regs [(4#4, 16#8)]).readV 4#4).toNat := by decide

theorem witness_GetDelayReadsTheTimer : 0xF607#16 &&& 0xF0FF#16 = 0xF007#16 := by decide

/-- The first key, the last key alone, and none. -/
theorem witness_GetKeyWaitsOrTakesTheLowestKey :
    0xFF0A#16 &&& 0xF0FF#16 = 0xF00A#16 ∧
    (keys State.reset [0, 9]).keyDown 0 = true ∧
    ((keys State.reset [15]).keyDown 15 = true ∧ ∀ j, j < 15 → (keys State.reset [15]).keyDown j = false) ∧
    (∀ k, k < 16 → State.reset.keyDown k = false) ∧
    ((State.reset.withFetchWord 16 0xF30A).fault = none ∧
      (State.reset.withFetchWord 16 0xF30A).nextInstr = some (.getKeyBlocking 3#4) ∧
      ∀ k, k < 16 → (State.reset.withFetchWord 16 0xF30A).keyDown k = false) := by decide

theorem witness_SetTimersCopyVx :
    0xF615#16 &&& 0xF0FF#16 = 0xF015#16 ∧ 0xF618#16 &&& 0xF0FF#16 = 0xF018#16 := by decide

/-- The first word of memory and the last. -/
theorem witness_StepRunsTheDecodedInstruction :
    (busy.fault = none ∧ busy.pc.toNat + 1 < 0x1000 ∧
      decodeWord (wordOfBytes (busy.readByte 0x200) (busy.readByte 0x201)) = .ok (.draw 0#4 1#4 1#4)) ∧
    (State.reset.setPc 0xFFE#16).pc.toNat + 1 < 0x1000 ∧
      decodeWord (wordOfBytes (State.reset.readByte 0xFFE) (State.reset.readByte 0xFFF)) =
        .ok (.callMachineRoutine 0#12) :=
  ⟨⟨rfl, by decide, rfl⟩, by decide, rfl⟩

/-- A `pc` in memory, and one outside. -/
theorem witness_StepRunsTheStoredWord :
    (Memory.wf busy.mem = true ∧ decodeTableWord 16 0x8014 = some (.addRegisters 0#4 1#4)) ∧
    (after 0x6005 ((faulted State.reset).setPc 0x1000#16)).map (fun t => (t.pc, t.readV 0#4)) =
      some (0x202#16, 5#8) := by decide

theorem witness_FetchOutsideMemoryFaults :
    ((State.reset.setPc 0xFFF#16).fault = none ∧ 0xFFF ≤ (State.reset.setPc 0xFFF#16).pc.toNat) ∧
    0xFFF ≤ (State.reset.setPc 0x1000#16).pc.toNat ∧ 0xFFF ≤ (State.reset.setPc 0xFFFF#16).pc.toNat := by decide

theorem witness_InvalidWordFaultsAndIsRecorded :
    (bytes State.reset 0x200 [0x80#8, 0x08#8]).fault = none ∧
    (bytes State.reset 0x200 [0x80#8, 0x08#8]).pc.toNat + 1 < 0x1000 ∧
    0x8008#16 = wordOfBytes ((bytes State.reset 0x200 [0x80#8, 0x08#8]).readByte 0x200)
      ((bytes State.reset 0x200 [0x80#8, 0x08#8]).readByte 0x201) ∧
    (decodeWord 0x8008#16).toOption = none := by decide

theorem witness_StepInFaultedDoesNothing :
    (faulted busy).fault = some ⟨.invalidOpcode, 0x200#16, 0x8008#16, 0#16⟩ := by decide

/-- A fault of the fetch, of the decoder and of an instruction. -/
theorem witness_FaultsArePrecise :
    ((after 0x00EE State.reset).map (·.fault.isSome) = some true ∧
      (State.reset.withFetchWord 16 0x00EE).fault = none) ∧
    (after 0x8008 State.reset).map (·.fault.isSome) = some true ∧
    (next? (step (State.reset.setPc 0xFFF#16))).map (·.fault.isSome) = some true := by decide

theorem witness_ComponentsHaveOnlyTheirWriters :
    ∃ t : State, exec (.setDelay 1#4) busy = .next t ∧ t.DT ≠ busy.DT := ⟨_, rfl, by decide⟩

theorem witness_PcAfterEachInstruction :
    ∃ t : State, exec .returnSubroutine busy = .next t ∧ busy.fault = none ∧ t.fault = none := ⟨_, rfl, rfl, rfl⟩

theorem witness_StepNeverWritesReservedMemory :
    Memory.wf (State.reset.setMem edges).mem = true ∧
      ∃ t : State, step (State.reset.setMem edges) = .next t ∧ 0x1FF < 0x200 := ⟨by decide, _, rfl, by decide⟩

/-- FX55 of one register and of sixteen up to the last byte, FX33 up to the last byte; a fetch of two stored bytes, of the
last stored byte and the one after it, and of the last word of memory. -/
theorem witness_StoredBytesAreFetched :
    (Memory.wf busy.mem = true ∧ 0x200 ≤ busy.dataBase ∧ busy.dataBase + (1#4).toNat < 0x1000 ∧
      ∃ t : State, exec (.dumpRegisters 1#4) busy = .next t) ∧
    (0x200 ≤ (busy.setI 0xFF0#16).dataBase ∧ (busy.setI 0xFF0#16).dataBase + (15#4).toNat < 0x1000) ∧
    ((0x300#16).toNat + 1 < 0x1000 ∧ (0x301#16).toNat + 1 < 0x1000 ∧ (0xFFE#16).toNat + 1 < 0x1000) ∧
    (5#8 = (if busy.dataBase ≤ 0x300 ∧ 0x300 ≤ busy.dataBase + 1 then busy.readV 0#4 else busy.readByte 0x300) ∧
      0x10#8 = (if busy.dataBase ≤ 0x301 ∧ 0x301 ≤ busy.dataBase + 1 then busy.readV 1#4 else busy.readByte 0x301) ∧
      0#8 = (if busy.dataBase ≤ 0x302 ∧ 0x302 ≤ busy.dataBase + 1 then busy.readV 2#4 else busy.readByte 0x302)) ∧
    ((busy.setI 0xFFD#16).dataBase + 3 ≤ 0x1000 ∧
      (∃ t : State, exec (.storeBCD 15#4) (busy.setI 0xFFD#16) = .next t) ∧
      (2#8).toNat = (busy.readV 15#4).toNat / 100 ∧ (5#8).toNat = (busy.readV 15#4).toNat / 10 % 10 ∧
      (5#8).toNat = (busy.readV 15#4).toNat % 10) :=
  ⟨⟨by decide, by decide, by decide, answers (by decide)⟩, by decide, by decide, by decide,
    by decide, answers (by decide), by decide, by decide, by decide⟩

theorem witness_MemoryReadsBackWhatWasWritten :
    Memory.wf edges = true ∧ (0x200 ≤ 0x200 ∧ 0x200 < 0x1000) ∧ (0x200 ≤ 0xFFF ∧ 0xFFF < 0x1000) ∧
      0x1FF < 0x200 ∧ 0x1000 ≤ 0x1000 := by decide

theorem witness_OnlyRandomUsesTheRandomByte :
    (∀ x nn, busy.nextInstr ≠ some (.random x nn)) ∧
    ((State.reset.withFetchWord 16 0xC20F).fault = none ∧
      (State.reset.withFetchWord 16 0xC20F).nextInstr = some (.random 2#4 0x0F#8)) := by
  have h : busy.nextInstr = some (.draw 0#4 1#4 1#4) := by decide
  refine ⟨fun x nn e => ?_, by decide⟩
  rw [h] at e
  cases e

/-- The invariant of a state that is none of reset: a call under way, a program in memory, STACK_LIMIT finite. -/
theorem witness_StepKeepsTheInvariant : Inv busy ∧ ∃ t : State, step busy = .next t := by
  refine ⟨⟨by decide, by decide, ?_, ?_, ?_⟩, answers (by decide)⟩
  · exact List.forall_mem_singleton.mpr (by decide)
  · intro d h
    cases h
    decide
  · intro f h
    cases h

/-- Each operation from a state that has the invariant, and a RESET state. -/
theorem witness_HostOperationsKeepTheInvariant :
    Inv busy ∧ (∃ t, hostStep (.step 0xFF#8) busy = .next t) ∧ (∃ t, hostStep .tick busy = .next t) ∧
      (∃ t, hostStep (.setKeys 0x8001#16) busy = .next t) ∧ (∃ t, hostStep .read busy = .next t) ∧
      (∃ t, hostStep (.reset [0x00#8, 0xEE#8]) busy = .next t) ∧
      CleanReset [0x00#8, 0xEE#8] (busy.resetTo [0x00#8, 0xEE#8]) :=
  ⟨witness_StepKeepsTheInvariant.1, answers (by decide), ⟨_, rfl⟩, ⟨_, rfl⟩, ⟨_, rfl⟩, ⟨_, rfl⟩, by decide, busy, rfl⟩

theorem witness_ReachableStatesMeetTheInvariant :
    ∃ s t : State, CleanReset [0x00#8, 0xEE#8] s ∧ Reachable s ∧ hostStep (.step 7#8) s = .next t ∧ Reachable t := by
  have h : CleanReset [0x00#8, 0xEE#8] (State.reset.resetTo [0x00#8, 0xEE#8]) := ⟨by decide, _, rfl⟩
  obtain ⟨t, ht⟩ := answers (o := hostStep (.step 7#8) (State.reset.resetTo [0x00#8, 0xEE#8])) (by decide)
  exact ⟨_, t, h, .reset h, ht, .after (.reset h) ht⟩

/-- An image of the greatest length, one byte, none, and one byte too many. -/
theorem witness_ResetLoadsTheImage :
    (List.replicate 3584 1#8).length ≤ 3584 ∧ [5#8].length ≤ 3584 ∧ ([] : List Byte).length ≤ 3584 ∧
      3584 < (List.replicate 3585 1#8).length := by
  rw [List.length_replicate, List.length_replicate]
  decide

theorem witness_ReadShowsStatusAndRecord :
    State.reset.fault = none ∧
      (faulted busy).fault = some ⟨.invalidOpcode, 0x200#16, 0x8008#16, 0#16⟩ := by decide

/-- Each operation in FAULTED. -/
theorem witness_FaultStaysUntilReset :
    (faulted busy).fault = some ⟨.invalidOpcode, 0x200#16, 0x8008#16, 0#16⟩ ∧
      (∃ t, hostStep (.reset []) (faulted busy) = .next t) ∧ (∃ t, hostStep (.step 0#8) (faulted busy) = .next t) ∧
      (∃ t, hostStep .tick (faulted busy) = .next t) ∧
      (∃ t, hostStep (.setKeys 0x0220#16) (faulted busy) = .next t) ∧ ∃ t, hostStep .read (faulted busy) = .next t :=
  ⟨by decide, ⟨_, rfl⟩, answers (by decide), ⟨_, rfl⟩, ⟨_, rfl⟩, ⟨_, rfl⟩⟩

/-- Each of the three results. -/
theorem witness_StepResultsAreTheThree :
    (after 0xF30A State.reset).map (stepResult (State.reset.withFetchWord 16 0xF30A)) = some .waiting ∧
    (after 0x6005 State.reset).map (stepResult (State.reset.withFetchWord 16 0x6005)) = some .executed ∧
    (after 0x8008 State.reset).map (stepResult (State.reset.withFetchWord 16 0x8008)) =
      some (.fault ⟨.invalidOpcode, 0x200#16, 0x8008#16, 0#16⟩) := by decide

end Sys2Proof.Tests
end

section
/-! SUPPORT. What a step does to each component of the state: how each instruction that can fault ends, which components
an instruction writes (spec/10_state.md R23, R26 to R33), where it leaves `pc` (R25), and the invariant of every state. -/

namespace Sys2Proof.Proofs

open Sys2Proof.Machine Sys2Proof.Safety

variable {i : Instr} {s t : State}

/-! ## Legal fault records (spec/60_exceptions.md R301, R302) -/

/-- The lowest address outside the memory, as the record holds it, is outside the memory. -/
theorem le_toNat_addressOutside {base : Nat} (h : base < 2 ^ 16) :
    0x1000 ≤ (BitVec.ofNat 16 (max base memorySize)).toNat := by
  rw [BitVec.toNat_ofNat, memorySize]
  omega

theorem dataBase_lt (s : State) : s.dataBase < 2 ^ 16 := s.I.isLt

/-- A read raises MEM_OUT_OF_RANGE only. -/
theorem legalRecord_of_readChecked {m : Memory} {base n : Nat} {r : Raise} (hb : base < 2 ^ 16)
    (h : readChecked m base n = .error r) (pc word : Word) : LegalRecord ⟨r.cause, pc, word, r.info⟩ := by
  by_cases hfit : n = 0 ∨ base + n ≤ memorySize
  · rw [readChecked_ok m hfit] at h
    cases h
  · rw [readChecked_error m (by omega) (by omega)] at h
    cases h
    exact le_toNat_addressOutside hb

/-- A write raises RESERVED_WRITE or MEM_OUT_OF_RANGE; FX33 and FX55 are the instructions that write. -/
theorem legalRecord_of_writeChecked {m : Memory} {base : Nat} {bs : List Byte} {r : Raise} {word : Word}
    (hb : base < 2 ^ 16) (h : writeChecked m base bs = .error r) (pc : Word)
    (hword : ∃ x, word = encode (.storeBCD x) ∨ word = encode (.dumpRegisters x)) :
    LegalRecord ⟨r.cause, pc, word, r.info⟩ := by
  rw [writeChecked, firstRaise_checkWrite] at h
  by_cases hreserved : 0 < bs.length ∧ base < firstWritable
  · rw [if_pos hreserved] at h
    cases h
    refine ⟨?_, hword⟩
    have hlow : base < 0x200 := hreserved.2
    rw [BitVec.toNat_ofNat]
    omega
  · rw [if_neg hreserved] at h
    by_cases houtside : 0 < bs.length ∧ memorySize < base + bs.length
    · rw [if_pos houtside] at h
      cases h
      exact le_toNat_addressOutside hb
    · rw [if_neg houtside] at h
      cases h

/-- A key number above 15 raises KEY_INDEX_OUT_OF_RANGE; EX9E and EXA1 are the instructions that ask for one. -/
theorem legalRecord_of_keyIndex {v : Byte} {r : Raise} {word : Word} (h : keyIndex v = .error r) (pc : Word)
    (hword : ∃ x, word = encode (.skipIfKeyPressed x) ∨ word = encode (.skipIfKeyNotPressed x)) :
    LegalRecord ⟨r.cause, pc, word, r.info⟩ := by
  by_cases hv : v.toNat < 16
  · rw [keyIndex_ok hv] at h
    cases h
  · rw [keyIndex_error (by omega)] at h
    cases h
    have hinfo : (v.setWidth 16).toNat = v.toNat := BitVec.toNat_setWidth_of_le (by decide)
    exact ⟨by rw [hinfo]; omega, by rw [hinfo]; exact v.isLt, hword⟩

/-- The key number is the value of the register. -/
theorem eq_toNat_of_keyIndex_ok {v : Byte} {k : Nat} (h : keyIndex v = .ok k) : k = v.toNat := by
  unfold keyIndex at h
  split at h <;> cases h
  rfl

/-! ## How the instructions that can fault end -/

/-- The instruction took a fault, with a legal record of itself. -/
def FaultsLegally (i : Instr) (s t : State) : Prop :=
  ∃ r : Raise, LegalRecord ⟨r.cause, s.pc, encode i, r.info⟩ ∧ t = faultedState s r.cause (encode i) r.info

theorem faultsLegally_of_raiseFault {r : Raise} (hr : LegalRecord ⟨r.cause, s.pc, encode i, r.info⟩)
    (h : raiseFault i r s = .next t) : FaultsLegally i s t := by
  rw [raiseFault_eq] at h
  cases h
  exact ⟨r, hr, rfl⟩

theorem exec_returnSubroutine_next (h : exec .returnSubroutine s = .next t) :
    FaultsLegally .returnSubroutine s t ∨
      ∃ target rest, s.stack = target :: rest ∧ t = (s.advance.setStack rest).setPc target := by
  rw [exec, execReturnSubroutine] at h
  cases hstack : s.stack with
  | nil =>
    rw [hstack] at h
    exact .inl (faultsLegally_of_raiseFault (r := ⟨.stackUnderflow, 0#16⟩) ⟨rfl, rfl⟩ h)
  | cons target rest =>
    rw [hstack] at h
    cases h
    exact .inr ⟨target, rest, rfl, rfl⟩

theorem exec_callSubroutine_next {nnn : Addr12} (h : exec (.callSubroutine nnn) s = .next t) :
    FaultsLegally (.callSubroutine nnn) s t ∨ s.config.stackLimit ≠ some s.stack.length ∧
      t = (s.advance.setStack ((s.pc + 2#16) :: s.stack)).setPc (addrOperand nnn) := by
  rw [exec, execCallSubroutine] at h
  by_cases hfull : s.config.stackLimit = some s.stack.length
  · rw [push_full _ hfull] at h
    exact .inl (faultsLegally_of_raiseFault (r := ⟨.stackOverflow, 0#16⟩) ⟨rfl, aField_encodeNNN _ _⟩ h)
  · rw [push_ok _ hfull] at h
    cases h
    exact .inr ⟨hfull, rfl⟩

theorem exec_draw_next {x y : Reg} {n : Nibble} (h : exec (.draw x y n) s = .next t) :
    FaultsLegally (.draw x y n) s t ∨ ∃ f flag, t = (s.advance.setFb f).writeV VF flag := by
  rw [exec, execDraw] at h
  split at h
  · exact .inl (faultsLegally_of_raiseFault (legalRecord_of_readChecked (dataBase_lt s) ‹_› _ _) h)
  · cases h
    exact .inr ⟨_, _, rfl⟩

theorem exec_skipIfKeyPressed_next {x : Reg} (h : exec (.skipIfKeyPressed x) s = .next t) :
    FaultsLegally (.skipIfKeyPressed x) s t ∨ t = s.advance.skipIf (s.keyDown (s.readV x).toNat) := by
  rw [exec, execSkipIfKeyPressed] at h
  split at h
  · exact .inl (faultsLegally_of_raiseFault (legalRecord_of_keyIndex ‹_› _ ⟨x, .inl rfl⟩) h)
  · next k hk =>
    cases h
    rw [eq_toNat_of_keyIndex_ok hk]
    exact .inr rfl

theorem exec_skipIfKeyNotPressed_next {x : Reg} (h : exec (.skipIfKeyNotPressed x) s = .next t) :
    FaultsLegally (.skipIfKeyNotPressed x) s t ∨ t = s.advance.skipIf (!s.keyDown (s.readV x).toNat) := by
  rw [exec, execSkipIfKeyNotPressed] at h
  split at h
  · exact .inl (faultsLegally_of_raiseFault (legalRecord_of_keyIndex ‹_› _ ⟨x, .inr rfl⟩) h)
  · next k hk =>
    cases h
    rw [eq_toNat_of_keyIndex_ok hk]
    exact .inr rfl

/-- FX0A raises no fault; it goes back to A or takes a key that is down. -/
theorem exec_getKeyBlocking_next {x : Reg} (h : exec (.getKeyBlocking x) s = .next t) :
    (∀ k, s.keyDown k = false) ∧ t = s.advance.rewind ∨
      ∃ k, s.keyDown k = true ∧ t = s.advance.writeV x (BitVec.ofNat 8 k) := by
  rw [exec, execGetKeyBlocking] at h
  split at h
  · next hnone =>
    cases h
    exact .inl ⟨(State.firstKeyDown_none s).mp hnone, rfl⟩
  · next k hsome =>
    cases h
    exact .inr ⟨k, ((State.firstKeyDown_some s k).mp hsome).1, rfl⟩

theorem exec_storeBCD_next {x : Reg} (h : exec (.storeBCD x) s = .next t) :
    FaultsLegally (.storeBCD x) s t ∨
      ∃ m, writeChecked s.mem s.dataBase (bcdDigits (s.readV x)) = .ok m ∧ t = s.advance.setMem m := by
  rw [exec, execStoreBCD] at h
  split at h
  · exact .inl (faultsLegally_of_raiseFault (legalRecord_of_writeChecked (dataBase_lt s) ‹_› _ ⟨x, .inl rfl⟩) h)
  · next m hm =>
    cases h
    exact .inr ⟨m, hm, rfl⟩

theorem exec_dumpRegisters_next {x : Reg} (h : exec (.dumpRegisters x) s = .next t) :
    FaultsLegally (.dumpRegisters x) s t ∨
      ∃ m, writeChecked s.mem s.dataBase (s.registersFrom 0 (registerCount x)) = .ok m ∧ t = s.advance.setMem m := by
  rw [exec, execDumpRegisters] at h
  split at h
  · exact .inl (faultsLegally_of_raiseFault (legalRecord_of_writeChecked (dataBase_lt s) ‹_› _ ⟨x, .inr rfl⟩) h)
  · next m hm =>
    cases h
    exact .inr ⟨m, hm, rfl⟩

theorem exec_loadRegisters_next {x : Reg} (h : exec (.loadRegisters x) s = .next t) :
    FaultsLegally (.loadRegisters x) s t ∨
      t = s.advance.loadRegistersFrom 0 (Memory.readBytes s.mem s.dataBase (registerCount x)) := by
  rw [exec, execLoadRegisters] at h
  by_cases hfit : registerCount x = 0 ∨ s.dataBase + registerCount x ≤ memorySize
  · rw [readChecked_ok _ hfit] at h
    cases h
    exact .inr rfl
  · have herror := readChecked_error s.mem (base := s.dataBase) (n := registerCount x) (by omega) (by omega)
    rw [herror] at h
    exact .inl (faultsLegally_of_raiseFault (legalRecord_of_readChecked (dataBase_lt s) herror _ _) h)

/-! ## The writers of each component (spec/10_state.md R23, R26 to R33)

`WrittenOnlyBy i s t`: `i` is a writer of every component in which `t` differs from `s`. One rule per state operation; an
operation on a component asks that `i` is one of the component's writers. -/

structure WrittenOnlyBy (i : Instr) (s t : State) : Prop where
  delay : t.DT ≠ s.DT → ∃ x, i = .setDelay x
  sound : t.ST ≠ s.ST → ∃ x, i = .setSound x
  index : t.I ≠ s.I → (∃ nnn, i = .setIndex nnn) ∨ ∃ x, i = .addToIndex x
  stack : t.stack ≠ s.stack → (∃ nnn, i = .callSubroutine nnn) ∨ i = .returnSubroutine
  framebuffer : t.fb ≠ s.fb → i = .clearScreen ∨ ∃ x y n, i = .draw x y n
  memory : t.mem ≠ s.mem → ∃ x, i = .storeBCD x ∨ i = .dumpRegisters x
  registers : ∀ r, t.readV r ≠ s.readV r → WritesRegister i r
  keys : t.key = s.key
  config : t.config = s.config

namespace WrittenOnlyBy

theorem refl (i : Instr) (s : State) : WrittenOnlyBy i s s where
  delay h := absurd rfl h
  sound h := absurd rfl h
  index h := absurd rfl h
  stack h := absurd rfl h
  framebuffer h := absurd rfl h
  memory h := absurd rfl h
  registers _ h := absurd rfl h
  keys := rfl
  config := rfl

theorem setPc (h : WrittenOnlyBy i s t) (a : Word) : WrittenOnlyBy i s (t.setPc a) := { h with }

theorem setFault (h : WrittenOnlyBy i s t) (f : Option FaultRecord) : WrittenOnlyBy i s (t.setFault f) := { h with }

theorem countDraw (h : WrittenOnlyBy i s t) : WrittenOnlyBy i s t.countDraw := { h with }

theorem skipIf (h : WrittenOnlyBy i s t) (c : Bool) : WrittenOnlyBy i s (t.skipIf c) := by
  cases c with
  | false => exact h
  | true => exact h.setPc _

theorem setDT (h : WrittenOnlyBy i s t) (hi : ∃ x, i = .setDelay x) (b : Byte) : WrittenOnlyBy i s (t.setDT b) :=
  { h with delay := fun _ => hi }

theorem setST (h : WrittenOnlyBy i s t) (hi : ∃ x, i = .setSound x) (b : Byte) : WrittenOnlyBy i s (t.setST b) :=
  { h with sound := fun _ => hi }

theorem setI (h : WrittenOnlyBy i s t) (hi : (∃ nnn, i = .setIndex nnn) ∨ ∃ x, i = .addToIndex x) (a : Word) :
    WrittenOnlyBy i s (t.setI a) := { h with index := fun _ => hi }

theorem setStack (h : WrittenOnlyBy i s t) (hi : (∃ nnn, i = .callSubroutine nnn) ∨ i = .returnSubroutine)
    (st : List Word) : WrittenOnlyBy i s (t.setStack st) := { h with stack := fun _ => hi }

theorem setFb (h : WrittenOnlyBy i s t) (hi : i = .clearScreen ∨ ∃ x y n, i = .draw x y n) (f : Framebuffer) :
    WrittenOnlyBy i s (t.setFb f) := { h with framebuffer := fun _ => hi }

theorem setMem (h : WrittenOnlyBy i s t) (hi : ∃ x, i = .storeBCD x ∨ i = .dumpRegisters x) (m : Memory) :
    WrittenOnlyBy i s (t.setMem m) := { h with memory := fun _ => hi }

theorem writeV (h : WrittenOnlyBy i s t) {x : Reg} (hi : WritesRegister i x) (b : Byte) :
    WrittenOnlyBy i s (t.writeV x b) :=
  { h with
    registers := by
      intro r hr
      by_cases hrx : r = x
      · exact hrx ▸ hi
      · rw [State.writeV_readV, if_neg hrx] at hr
        exact h.registers r hr }

/-- The registers from number `k` on that a list is loaded into are written. -/
theorem loadRegistersFrom (h : WrittenOnlyBy i s t) {k : Nat} {bs : List Byte}
    (hi : ∀ j, j < bs.length → WritesRegister i (regOfNat (k + j))) :
    WrittenOnlyBy i s (t.loadRegistersFrom k bs) := by
  induction bs generalizing t k with
  | nil => exact h
  | cons b bs ih =>
    rw [State.loadRegistersFrom]
    refine ih (h.writeV (hi 0 (by simp)) b) fun j hj => ?_
    rw [Nat.add_right_comm]
    exact hi (j + 1) (Nat.succ_lt_succ hj)

theorem of_faultsLegally (h : FaultsLegally i s t) : WrittenOnlyBy i s t := by
  obtain ⟨r, -, rfl⟩ := h
  exact (refl i s).setFault _

end WrittenOnlyBy

/-- Every instruction writes only what the spec says it writes. -/
theorem exec_writtenOnlyBy (h : exec i s = .next t) : WrittenOnlyBy i s t := by
  have advanced : WrittenOnlyBy i s s.advance := (WrittenOnlyBy.refl i s).setPc _
  cases i
  case callMachineRoutine | setIndexToSpriteChar => cases h; exact advanced
  case jump | jumpPlus => cases h; exact advanced.setPc _
  case skipIfEqValue | skipIfNotEqValue | skipIfEqRegister | skipIfNotEqRegister => cases h; exact advanced.skipIf _
  case setRegisterToValue | addRegisterValue | copy | orRegisters | andRegisters | xorRegisters | getDelay =>
    cases h; exact advanced.writeV rfl _
  case addRegisters | subRegisters | reverseSub =>
    cases h; exact (advanced.writeV (.inl rfl) _).writeV (.inr rfl) _
  case shiftRight | shiftLeft => cases h; exact (advanced.writeV (.inr rfl) _).writeV (.inl rfl) _
  case random => cases h; exact (advanced.writeV rfl _).countDraw
  case setDelay x => cases h; exact advanced.setDT ⟨x, rfl⟩ _
  case setSound x => cases h; exact advanced.setST ⟨x, rfl⟩ _
  case setIndex nnn => cases h; exact advanced.setI (.inl ⟨nnn, rfl⟩) _
  case addToIndex x => cases h; exact advanced.setI (.inr ⟨x, rfl⟩) _
  case clearScreen => cases h; exact advanced.setFb (.inl rfl) _
  case returnSubroutine =>
    obtain hf | ⟨target, rest, -, rfl⟩ := exec_returnSubroutine_next h
    · exact .of_faultsLegally hf
    · exact (advanced.setStack (.inr rfl) _).setPc _
  case callSubroutine nnn =>
    obtain hf | ⟨-, rfl⟩ := exec_callSubroutine_next h
    · exact .of_faultsLegally hf
    · exact (advanced.setStack (.inl ⟨nnn, rfl⟩) _).setPc _
  case draw x y n =>
    obtain hf | ⟨f, flag, rfl⟩ := exec_draw_next h
    · exact .of_faultsLegally hf
    · exact (advanced.setFb (.inr ⟨x, y, n, rfl⟩) _).writeV rfl _
  case skipIfKeyPressed =>
    obtain hf | rfl := exec_skipIfKeyPressed_next h
    · exact .of_faultsLegally hf
    · exact advanced.skipIf _
  case skipIfKeyNotPressed =>
    obtain hf | rfl := exec_skipIfKeyNotPressed_next h
    · exact .of_faultsLegally hf
    · exact advanced.skipIf _
  case getKeyBlocking =>
    obtain ⟨-, rfl⟩ | ⟨k, -, rfl⟩ := exec_getKeyBlocking_next h
    · exact advanced.setPc _
    · exact advanced.writeV rfl _
  case storeBCD x =>
    obtain hf | ⟨m, -, rfl⟩ := exec_storeBCD_next h
    · exact .of_faultsLegally hf
    · exact advanced.setMem ⟨x, .inl rfl⟩ _
  case dumpRegisters x =>
    obtain hf | ⟨m, -, rfl⟩ := exec_dumpRegisters_next h
    · exact .of_faultsLegally hf
    · exact advanced.setMem ⟨x, .inr rfl⟩ _
  case loadRegisters x =>
    obtain hf | rfl := exec_loadRegisters_next h
    · exact .of_faultsLegally hf
    · refine advanced.loadRegistersFrom fun j hj => ?_
      rw [Memory.readBytes_length, registerCount] at hj
      have hx := x.isLt
      have hreg : (regOfNat (0 + j)).toNat = 0 + j := toNat_regOfNat (by omega)
      show (regOfNat (0 + j)).toNat ≤ x.toNat
      omega

/-- Settles O43, by a rule per state operation and the operations each instruction makes. -/
theorem componentsHaveOnlyTheirWriters : Obligations.ComponentsHaveOnlyTheirWriters := by
  intro i s t h
  obtain ⟨delay, sound, index, stack, framebuffer, memory, registers, keys, config⟩ := exec_writtenOnlyBy h
  exact ⟨delay, sound, index, stack, framebuffer, memory, registers, keys, config⟩

/-! ## Where an instruction leaves `pc` (spec/10_state.md R25) -/

theorem toNat_addrOperand (nnn : Addr12) : (addrOperand nnn).toNat = nnn.toNat :=
  BitVec.toNat_setWidth_of_le (by decide)

/-- BNNN's sum is kept in full: it cannot leave 16 bits. -/
theorem toNat_addrOperand_add_wideV (nnn : Addr12) (s : State) (x : Reg) :
    (addrOperand nnn + s.wideV x).toNat = nnn.toNat + (s.readV x).toNat := by
  have hv : (s.wideV x).toNat = (s.readV x).toNat := BitVec.toNat_setWidth_of_le (by decide)
  have hn := nnn.isLt
  have hb := (s.readV x).isLt
  rw [BitVec.toNat_add, toNat_addrOperand, hv]
  omega

/-- A taken skip goes on by 4, another by 2. -/
theorem advance_skipIf_pc (s : State) (c : Bool) :
    (s.advance.skipIf c).pc = s.pc + if c = true then 4#16 else 2#16 := by
  cases c with
  | false => rfl
  | true => exact BitVec.add_assoc s.pc 2#16 2#16

theorem advance_skipIf_decide_pc (s : State) (p : Prop) [Decidable p] :
    (s.advance.skipIf (decide p)).pc = s.pc + if p then 4#16 else 2#16 := by
  rw [advance_skipIf_pc]
  simp only [decide_eq_true_eq]

theorem advance_rewind_pc (s : State) : s.advance.rewind.pc = s.pc := BitVec.add_sub_cancel s.pc 2#16

/-- Every instruction takes a fault with a legal record, or keeps the record and leaves `pc` as the table says. -/
theorem exec_faultsLegally_or_leavesPc (h : exec i s = .next t) :
    FaultsLegally i s t ∨ t.fault = s.fault ∧ LeavesPc i s t := by
  cases i
  case callMachineRoutine | clearScreen | setIndex | addToIndex | setIndexToSpriteChar | setDelay | setSound =>
    cases h; exact .inr ⟨rfl, rfl⟩
  case setRegisterToValue | addRegisterValue | copy | orRegisters | andRegisters | xorRegisters | getDelay | random =>
    cases h; exact .inr ⟨rfl, rfl⟩
  case addRegisters | subRegisters | reverseSub | shiftRight | shiftLeft => cases h; exact .inr ⟨rfl, rfl⟩
  case jump nnn => cases h; exact .inr ⟨rfl, toNat_addrOperand nnn⟩
  case jumpPlus nnn => cases h; exact .inr ⟨rfl, toNat_addrOperand_add_wideV nnn s V0⟩
  case skipIfEqValue | skipIfNotEqValue | skipIfEqRegister | skipIfNotEqRegister =>
    cases h; exact .inr ⟨State.skipIf_fault _ _, advance_skipIf_decide_pc s _⟩
  case returnSubroutine =>
    obtain hf | ⟨target, rest, hstack, rfl⟩ := exec_returnSubroutine_next h
    · exact .inl hf
    · exact .inr ⟨rfl, congrArg List.head? hstack⟩
  case callSubroutine nnn =>
    obtain hf | ⟨-, rfl⟩ := exec_callSubroutine_next h
    · exact .inl hf
    · exact .inr ⟨rfl, toNat_addrOperand nnn⟩
  case draw =>
    obtain hf | ⟨f, flag, rfl⟩ := exec_draw_next h
    · exact .inl hf
    · exact .inr ⟨rfl, rfl⟩
  case skipIfKeyPressed =>
    obtain hf | rfl := exec_skipIfKeyPressed_next h
    · exact .inl hf
    · exact .inr ⟨State.skipIf_fault _ _, advance_skipIf_pc s _⟩
  case skipIfKeyNotPressed x =>
    obtain hf | rfl := exec_skipIfKeyNotPressed_next h
    · exact .inl hf
    · refine .inr ⟨State.skipIf_fault _ _, (advance_skipIf_pc s _).trans ?_⟩
      cases s.keyDown (s.readV x).toNat <;> rfl
  case getKeyBlocking =>
    obtain ⟨hnone, rfl⟩ | ⟨k, hk, rfl⟩ := exec_getKeyBlocking_next h
    · refine .inr ⟨rfl, fun ⟨k, hk⟩ => ?_, fun _ => advance_rewind_pc s⟩
      rw [hnone k] at hk
      cases hk
    · refine .inr ⟨rfl, fun _ => rfl, fun hnone => ?_⟩
      rw [hnone k] at hk
      cases hk
  case storeBCD =>
    obtain hf | ⟨m, -, rfl⟩ := exec_storeBCD_next h
    · exact .inl hf
    · exact .inr ⟨rfl, rfl⟩
  case dumpRegisters =>
    obtain hf | ⟨m, -, rfl⟩ := exec_dumpRegisters_next h
    · exact .inl hf
    · exact .inr ⟨rfl, rfl⟩
  case loadRegisters =>
    obtain hf | rfl := exec_loadRegisters_next h
    · exact .inl hf
    · exact .inr ⟨State.loadRegistersFrom_fault _ _ _, State.loadRegistersFrom_pc _ _ _⟩

/-- Settles O44: an instruction that faults leaves a record, so one that leaves none follows the table. -/
theorem pcAfterEachInstruction : Obligations.PcAfterEachInstruction := by
  intro i s t h _ ht
  obtain ⟨r, -, rfl⟩ | ⟨-, hpc⟩ := exec_faultsLegally_or_leavesPc h
  · cases ht
  · exact hpc

/-! ## The invariant -/

/-- The default advance and a taken skip stay below the bound, from every address an instruction can be fetched at. -/
theorem toNat_add_le_of_fetched {a d : Word} (ha : a.toNat + 1 < memorySize) (hd : d.toNat ≤ 4) :
    (a + d).toNat ≤ 0x10FE := by
  rw [memorySize] at ha
  rw [BitVec.toNat_add]
  omega

/-- The table keeps the bound of R119, from every address an instruction can be fetched at. -/
theorem toNat_pc_le_of_leavesPc (h : LeavesPc i s t) (hp : s.pc.toNat + 1 < memorySize)
    (hentries : ∀ v ∈ s.stack, v.toNat ≤ 0x1000) : t.pc.toNat ≤ 0x10FE := by
  cases i
  case jump nnn | callSubroutine nnn =>
    have hn := nnn.isLt
    have ht : t.pc.toNat = nnn.toNat := h
    omega
  case jumpPlus nnn =>
    have hn := nnn.isLt
    have hb := (s.readV 0#4).isLt
    have ht : t.pc.toNat = nnn.toNat + (s.readV 0#4).toNat := h
    omega
  case returnSubroutine =>
    have ht := hentries t.pc (List.mem_of_head? h)
    omega
  case getKeyBlocking =>
    obtain ⟨hdown, hnone⟩ := h
    by_cases hk : ∃ k, s.keyDown k = true
    · rw [hdown hk]
      exact toNat_add_le_of_fetched hp (by decide)
    · rw [hnone fun k => by simpa using fun hc => hk ⟨k, hc⟩]
      rw [memorySize] at hp
      omega
  case skipIfEqValue | skipIfNotEqValue | skipIfEqRegister | skipIfNotEqRegister | skipIfKeyPressed |
      skipIfKeyNotPressed =>
    rw [h]
    exact toNat_add_le_of_fetched hp (by split <;> decide)
  all_goals
    rw [h]
    exact toNat_add_le_of_fetched hp (by decide)

theorem wf_mem_of_faultsLegally (h : FaultsLegally i s t) (hm : Memory.wf s.mem = true) : Memory.wf t.mem = true := by
  obtain ⟨r, -, rfl⟩ := h
  exact hm

/-- Only FX33 and FX55 write memory, by a checked write. -/
theorem exec_keeps_wf_mem (h : exec i s = .next t) (hm : Memory.wf s.mem = true) : Memory.wf t.mem = true := by
  by_cases hsame : t.mem = s.mem
  · rw [hsame]
    exact hm
  · obtain ⟨x, rfl | rfl⟩ := (exec_writtenOnlyBy h).memory hsame
    · obtain hf | ⟨m, hw, rfl⟩ := exec_storeBCD_next h
      · exact wf_mem_of_faultsLegally hf hm
      · exact wf_writeChecked hm hw
    · obtain hf | ⟨m, hw, rfl⟩ := exec_dumpRegisters_next h
      · exact wf_mem_of_faultsLegally hf hm
      · exact wf_writeChecked hm hw

/-- All an instruction can do to the stack: nothing, take its top, or push A + 2 below `STACK_LIMIT`. -/
theorem exec_stack_cases (h : exec i s = .next t) :
    t.stack = s.stack ∨ (∃ target, s.stack = target :: t.stack) ∨
      s.config.stackLimit ≠ some s.stack.length ∧ t.stack = (s.pc + 2#16) :: s.stack := by
  by_cases hsame : t.stack = s.stack
  · exact .inl hsame
  · obtain ⟨nnn, rfl⟩ | rfl := (exec_writtenOnlyBy h).stack hsame
    · obtain ⟨r, -, rfl⟩ | ⟨hroom, rfl⟩ := exec_callSubroutine_next h
      · exact .inl rfl
      · exact .inr (.inr ⟨hroom, rfl⟩)
    · obtain ⟨r, -, rfl⟩ | ⟨target, rest, hstack, rfl⟩ := exec_returnSubroutine_next h
      · exact .inl rfl
      · exact .inr (.inl ⟨target, hstack⟩)

theorem exec_keeps_entries (h : exec i s = .next t) (hp : s.pc.toNat + 1 < memorySize)
    (hentries : ∀ v ∈ s.stack, v.toNat ≤ 0x1000) : ∀ v ∈ t.stack, v.toNat ≤ 0x1000 := by
  obtain hsame | ⟨target, hpop⟩ | ⟨-, hpush⟩ := exec_stack_cases h
  · rwa [hsame]
  · rw [hpop] at hentries
    exact fun v hv => hentries v (List.mem_cons_of_mem target hv)
  · have hreturn : (s.pc + 2#16).toNat ≤ 0x1000 := by
      rw [memorySize] at hp
      rw [BitVec.toNat_add]
      simp only [BitVec.toNat_ofNat]
      omega
    rw [hpush]
    exact List.forall_mem_cons.mpr ⟨hreturn, hentries⟩

theorem exec_keeps_depth (h : exec i s = .next t)
    (hdepth : ∀ d, s.config.stackLimit = some d → s.stack.length ≤ d) :
    ∀ d, t.config.stackLimit = some d → t.stack.length ≤ d := by
  intro d hd
  rw [(exec_writtenOnlyBy h).config] at hd
  have hle := hdepth d hd
  obtain hsame | ⟨target, hpop⟩ | ⟨hroom, hpush⟩ := exec_stack_cases h
  · rwa [hsame]
  · rw [hpop, List.length_cons] at hle
    omega
  · have hne : s.stack.length ≠ d := fun heq => hroom (heq ▸ hd)
    rw [hpush, List.length_cons]
    omega

/-- A fault entry with a legal record keeps the invariant: nothing but the record changes (R116). -/
theorem inv_faultedState (hs : Inv s) {cause : FaultCause} {word info : Word}
    (hlegal : LegalRecord ⟨cause, s.pc, word, info⟩) : Inv (faultedState s cause word info) where
  memory := hs.memory
  pc := hs.pc
  entries := hs.entries
  depth := hs.depth
  record f hf := by
    obtain rfl := Option.some.inj hf
    exact ⟨rfl, hlegal⟩

/-- An instruction fetched inside the memory in RUNNING keeps the invariant. -/
theorem exec_keeps_inv (hs : Inv s) (hrunning : s.fault = none) (hp : s.pc.toNat + 1 < memorySize)
    (h : exec i s = .next t) : Inv t := by
  obtain ⟨r, hlegal, rfl⟩ | ⟨hfault, hpc⟩ := exec_faultsLegally_or_leavesPc h
  · exact inv_faultedState hs hlegal
  · exact {
      memory := exec_keeps_wf_mem h hs.memory
      pc := toNat_pc_le_of_leavesPc hpc hp hs.entries
      entries := exec_keeps_entries h hp hs.entries
      depth := exec_keeps_depth h hs.depth
      record := fun f hf => by
        rw [hfault, hrunning] at hf
        cases hf }

/-- A step keeps the invariant when what executes the decoded instruction does: a fetch fault and an invalid word take a
legal fault (R113, R117), and FAULTED is left as it is (R121). -/
theorem stepBy_keeps_inv {run : Instr → State → Outcome}
    (hrun : s.fault = none → s.pc.toNat + 1 < memorySize → ∀ i, run i s = .next t → Inv t)
    (hs : Inv s) (h : stepBy run s = .next t) : Inv t := by
  obtain ⟨-, hstep⟩ | ⟨-, -, hstep⟩ | ⟨-, -, w, e, -, hdecode, hstep⟩ | ⟨hrunning, hp, w, i, -, -, hstep⟩ :=
    stepBy_cases run s
  · rw [hstep] at h
    cases h
    exact hs
  · rw [hstep] at h
    cases h
    exact inv_faultedState hs (le_toNat_addressOutside s.pc.isLt)
  · rw [hstep] at h
    cases h
    refine inv_faultedState hs ⟨rfl, ?_⟩
    rw [hdecode]
    rfl
  · exact hrun hrunning hp i (hstep ▸ h)

/-- Settles O51: component by component, from the writers of each, the table of `pc` and the legality of every fault. -/
theorem stepKeepsTheInvariant : Obligations.StepKeepsTheInvariant := fun _ _ hs h =>
  stepBy_keeps_inv (fun hrunning hp _ => exec_keeps_inv hs hrunning hp) hs h

end Sys2Proof.Proofs
end

section
/-! SUPPORT. `MemRead` and `MemWrite` of one byte (spec/20_memory.md R54, R55, R63): when each answers, when it faults, and
what a read gives after a write. -/

namespace Sys2Proof.Proofs

open Sys2Proof.Machine

variable {m m' : Memory} {a b : Nat}

/-! ## One byte read (R54) -/

theorem memRead_of_lt (m : Memory) (ha : a < memorySize) : memRead m a = .ok (Memory.read m a) := by
  have hcheck : checkRead a = none := if_neg (Nat.not_le.mpr ha)
  rw [memRead, hcheck]

theorem memRead_of_ge (m : Memory) (ha : memorySize ≤ a) :
    memRead m a = .error ⟨.memOutOfRange, BitVec.ofNat 16 a⟩ := by
  have hcheck : checkRead a = some ⟨.memOutOfRange, BitVec.ofNat 16 a⟩ := if_pos ha
  rw [memRead, hcheck]

/-- `MemRead` sees of a memory no more than the byte at its address. -/
theorem memRead_congr (h : Memory.read m a = Memory.read m' a) : memRead m a = memRead m' a := by
  rw [memRead, memRead, h]

/-! ## One byte written (R55) -/

theorem memWrite_of_writable (m : Memory) (v : Byte) (hr : firstWritable ≤ a) (ha : a < memorySize) :
    memWrite m a v = .ok (Memory.write m a v) := writeChecked_ok m hr ha

theorem memWrite_of_reserved (m : Memory) (v : Byte) (ha : a < firstWritable) :
    memWrite m a v = .error ⟨.reservedWrite, BitVec.ofNat 16 a⟩ := writeChecked_reserved m Nat.one_pos ha

theorem memWrite_of_ge (m : Memory) (v : Byte) (ha : memorySize ≤ a) :
    memWrite m a v = .error ⟨.memOutOfRange, BitVec.ofNat 16 a⟩ := by
  have hr : firstWritable ≤ a := Nat.le_trans (by decide) ha
  rw [memWrite, writeChecked_outside m (bs := [v]) Nat.one_pos hr (Nat.lt_succ_of_le ha), Nat.max_eq_left ha]

/-! ## A read after a write (R63) -/

theorem memRead_write_same (h : Memory.wf m = true) (v : Byte) (ha : a < memorySize) :
    memRead (Memory.write m a v) a = .ok v := by
  rw [memRead_of_lt _ ha, Memory.read_write h, if_pos rfl]

/-- Inside the memory and outside it: an address not written answers as before. -/
theorem memRead_write_other (h : Memory.wf m = true) (v : Byte) (hb : b ≠ a) :
    memRead (Memory.write m a v) b = memRead m b :=
  memRead_congr (by rw [Memory.read_write h, if_neg hb])

/-- Settles O47: the checks split the addresses at 0x200 and 0x1000, and between them a write is `Memory.write`. -/
theorem memoryReadsBackWhatWasWritten : Obligations.MemoryReadsBackWhatWasWritten := by
  intro m a v hm
  refine ⟨fun hr ha => ⟨Memory.write m a v, memWrite_of_writable m v hr ha, ?form, ?same, ?other⟩,
    memWrite_of_reserved m v, fun ha => ⟨memWrite_of_ge m v ha, memRead_of_ge m ha⟩, memRead_of_lt m⟩
  case form => exact Memory.wf_write v hm ha
  case same => exact memRead_write_same hm v ha
  case other => exact fun b hb => memRead_write_other hm v hb

end Sys2Proof.Proofs
end

section
/-! SUPPORT. The encoder and the decoder as inverses: every word is the word of a well-formed instruction, which the
decoder gives back, or stands in the table of invalid words, which it rejects (spec/30_encoding.md R85 to R94). -/

namespace Sys2Proof.Proofs

variable {i : Instr} {w : Word}

/-! ## Decoding what was encoded -/

theorem isMachineRoutine_iff {nnn : Addr12} : nnn.isMachineRoutine = true ↔ nnn ≠ 0x0E0#12 ∧ nnn ≠ 0x0EE#12 := by
  simp [Addr12.isMachineRoutine]

theorem decodeFamily0_encodeNNN {nnn : Addr12} (h : nnn.isMachineRoutine = true) :
    decodeFamily0 (encodeNNN 0x0#4 nnn) = .callMachineRoutine nnn := by
  obtain ⟨hclear, hreturn⟩ := isMachineRoutine_iff.mp h
  rw [decodeFamily0, nnnField_encodeNNN, if_neg hclear, if_neg hreturn]

/-- Every format puts the operands where the switch reads them. -/
theorem decodeWord_encode (h : i.wf = true) : decodeWord (encode i) = .ok i := by
  cases i
  case callMachineRoutine => simp [encode, decodeWord, decodeFamily0_encodeNNN h]
  case clearScreen | returnSubroutine => rfl
  case jump | callSubroutine | setIndex | jumpPlus | skipIfEqValue | skipIfNotEqValue | setRegisterToValue |
      addRegisterValue | random | draw =>
    simp [encode, decodeWord]
  case skipIfEqRegister | skipIfNotEqRegister => simp [encode, decodeWord, decodeFamilyXY0]
  case copy | orRegisters | andRegisters | xorRegisters | addRegisters | subRegisters | shiftRight | reverseSub |
      shiftLeft =>
    simp [encode, decodeWord, decodeFamily8]
  case skipIfKeyPressed | skipIfKeyNotPressed => simp [encode, decodeWord, decodeFamilyE]
  case getDelay | getKeyBlocking | setDelay | setSound | addToIndex | setIndexToSpriteChar | storeBCD | dumpRegisters |
      loadRegisters =>
    simp [encode, decodeWord, decodeFamilyF]

theorem decode_encodeBytes_append (h : i.wf = true) (rest : List Byte) :
    decode (encodeBytes i ++ rest) = .ok (i, rest) := by
  simp [encodeBytes, decode, decodeWord_encode h]

/-- Settles O2, format by format. -/
theorem decodeOfEncodeIsTheInstruction : Obligations.DecodeOfEncodeIsTheInstruction := fun _ h =>
  ⟨decodeWord_encode h, decode_encodeBytes_append h⟩

/-! ## The spec's example words -/

/-- Settles O1, by evaluation of the decoder on the fixed words. -/
theorem decodesTheSpecsExampleWords : Obligations.DecodesTheSpecsExampleWords :=
  ⟨rfl, rfl, rfl, rfl, rfl, rfl, rfl, rfl, rfl, rfl, rfl, rfl, rfl⟩

/-! ## Every word is an encoding or invalid -/

/-- The table of invalid words (R94). -/
def InvalidWord (w : Word) : Prop :=
  (aField w = 0x5#4 ∧ nField w ≠ 0x0#4) ∨
  (aField w = 0x8#4 ∧ nField w ∈ [0x8#4, 0x9#4, 0xA#4, 0xB#4, 0xC#4, 0xD#4, 0xF#4]) ∨
  (aField w = 0x9#4 ∧ nField w ≠ 0x0#4) ∨
  (aField w = 0xE#4 ∧ nnField w ∉ [0x9E#8, 0xA1#8]) ∨
  (aField w = 0xF#4 ∧ nnField w ∉ [0x07#8, 0x0A#8, 0x15#8, 0x18#8, 0x1E#8, 0x29#8, 0x33#8, 0x55#8, 0x65#8])

theorem decodeWord_of_invalid (h : InvalidWord w) : (decodeWord w).toOption = none := by
  obtain ⟨ha, hn⟩ | ⟨ha, hn⟩ | ⟨ha, hn⟩ | ⟨ha, hnn⟩ | ⟨ha, hnn⟩ := h
  · simp [decodeWord, ha, decodeFamilyXY0, hn, Except.toOption]
  · simp only [List.mem_cons, List.not_mem_nil, or_false] at hn
    obtain hn | hn | hn | hn | hn | hn | hn := hn <;> simp [decodeWord, ha, decodeFamily8, hn, Except.toOption]
  · simp [decodeWord, ha, decodeFamilyXY0, hn, Except.toOption]
  · simp only [List.mem_cons, List.not_mem_nil, or_false, not_or] at hnn
    simp [decodeWord, ha, decodeFamilyE, hnn, Except.toOption]
  · simp only [List.mem_cons, List.not_mem_nil, or_false, not_or] at hnn
    simp [decodeWord, ha, decodeFamilyF, hnn, Except.toOption]

/-- The word is the word of a well-formed instruction. -/
def IsEncoding (w : Word) : Prop := ∃ i : Instr, i.wf = true ∧ encode i = w

theorem decodeWord_of_isEncoding (h : IsEncoding w) :
    ∃ i : Instr, encode i = w ∧ i.wf = true ∧ decodeWord w = .ok i := by
  obtain ⟨i, hwf, rfl⟩ := h
  exact ⟨i, rfl, hwf, decodeWord_encode hwf⟩

theorem encodeNNN_of_fields {a : Nibble} (ha : aField w = a) : encodeNNN a (nnnField w) = w := by
  rw [← ha, encodeNNN_fields]

theorem encodeXNN_of_fields {a : Nibble} {nn : Byte} (ha : aField w = a) (hnn : nnField w = nn) :
    encodeXNN a (xField w) nn = w := by
  rw [← ha, ← hnn, encodeXNN_fields]

theorem encodeXYN_of_fields {a n : Nibble} (ha : aField w = a) (hn : nField w = n) :
    encodeXYN a (xField w) (yField w) n = w := by
  rw [← ha, ← hn, encodeXYN_fields]

theorem nibble_cases (a : Nibble) :
    a = 0x0#4 ∨ a = 0x1#4 ∨ a = 0x2#4 ∨ a = 0x3#4 ∨ a = 0x4#4 ∨ a = 0x5#4 ∨ a = 0x6#4 ∨ a = 0x7#4 ∨
      a = 0x8#4 ∨ a = 0x9#4 ∨ a = 0xA#4 ∨ a = 0xB#4 ∨ a = 0xC#4 ∨ a = 0xD#4 ∨ a = 0xE#4 ∨ a = 0xF#4 := by
  decide +revert

/-- Family 0 has no invalid word (R86). -/
theorem isEncoding_family0 (ha : aField w = 0x0#4) : IsEncoding w := by
  have hw := encodeNNN_of_fields ha
  by_cases hclear : nnnField w = 0x0E0#12
  · exact ⟨.clearScreen, rfl, by rw [← hw, hclear]; rfl⟩
  · by_cases hreturn : nnnField w = 0x0EE#12
    · exact ⟨.returnSubroutine, rfl, by rw [← hw, hreturn]; rfl⟩
    · exact ⟨.callMachineRoutine (nnnField w), isMachineRoutine_iff.mpr ⟨hclear, hreturn⟩, hw⟩

/-- Family 8, by `n` (R87). -/
theorem isEncoding_or_invalid_family8 (ha : aField w = 0x8#4) : IsEncoding w ∨ InvalidWord w := by
  by_cases hn : nField w ∈ [0x8#4, 0x9#4, 0xA#4, 0xB#4, 0xC#4, 0xD#4, 0xF#4]
  · exact .inr (.inr (.inl ⟨ha, hn⟩))
  · have hvalid : ∀ n : Nibble, n ∉ [0x8#4, 0x9#4, 0xA#4, 0xB#4, 0xC#4, 0xD#4, 0xF#4] →
        n = 0x0#4 ∨ n = 0x1#4 ∨ n = 0x2#4 ∨ n = 0x3#4 ∨ n = 0x4#4 ∨ n = 0x5#4 ∨ n = 0x6#4 ∨ n = 0x7#4 ∨
          n = 0xE#4 := by
      decide
    left
    obtain h | h | h | h | h | h | h | h | h := hvalid _ hn
    · exact ⟨.copy _ _, rfl, encodeXYN_of_fields ha h⟩
    · exact ⟨.orRegisters _ _, rfl, encodeXYN_of_fields ha h⟩
    · exact ⟨.andRegisters _ _, rfl, encodeXYN_of_fields ha h⟩
    · exact ⟨.xorRegisters _ _, rfl, encodeXYN_of_fields ha h⟩
    · exact ⟨.addRegisters _ _, rfl, encodeXYN_of_fields ha h⟩
    · exact ⟨.subRegisters _ _, rfl, encodeXYN_of_fields ha h⟩
    · exact ⟨.shiftRight _ _, rfl, encodeXYN_of_fields ha h⟩
    · exact ⟨.reverseSub _ _, rfl, encodeXYN_of_fields ha h⟩
    · exact ⟨.shiftLeft _ _, rfl, encodeXYN_of_fields ha h⟩

/-- Family E, by `nn` (R88). -/
theorem isEncoding_or_invalid_familyE (ha : aField w = 0xE#4) : IsEncoding w ∨ InvalidWord w := by
  by_cases hnn : nnField w ∈ [0x9E#8, 0xA1#8]
  · simp only [List.mem_cons, List.not_mem_nil, or_false] at hnn
    left
    obtain h | h := hnn
    · exact ⟨.skipIfKeyPressed _, rfl, encodeXNN_of_fields ha h⟩
    · exact ⟨.skipIfKeyNotPressed _, rfl, encodeXNN_of_fields ha h⟩
  · exact .inr (.inr (.inr (.inr (.inl ⟨ha, hnn⟩))))

/-- Family F, by `nn` (R89). -/
theorem isEncoding_or_invalid_familyF (ha : aField w = 0xF#4) : IsEncoding w ∨ InvalidWord w := by
  by_cases hnn : nnField w ∈ [0x07#8, 0x0A#8, 0x15#8, 0x18#8, 0x1E#8, 0x29#8, 0x33#8, 0x55#8, 0x65#8]
  · simp only [List.mem_cons, List.not_mem_nil, or_false] at hnn
    left
    obtain h | h | h | h | h | h | h | h | h := hnn
    · exact ⟨.getDelay _, rfl, encodeXNN_of_fields ha h⟩
    · exact ⟨.getKeyBlocking _, rfl, encodeXNN_of_fields ha h⟩
    · exact ⟨.setDelay _, rfl, encodeXNN_of_fields ha h⟩
    · exact ⟨.setSound _, rfl, encodeXNN_of_fields ha h⟩
    · exact ⟨.addToIndex _, rfl, encodeXNN_of_fields ha h⟩
    · exact ⟨.setIndexToSpriteChar _, rfl, encodeXNN_of_fields ha h⟩
    · exact ⟨.storeBCD _, rfl, encodeXNN_of_fields ha h⟩
    · exact ⟨.dumpRegisters _, rfl, encodeXNN_of_fields ha h⟩
    · exact ⟨.loadRegisters _, rfl, encodeXNN_of_fields ha h⟩
  · exact .inr (.inr (.inr (.inr (.inr ⟨ha, hnn⟩))))

/-- Family by family (R85, R91). -/
theorem isEncoding_or_invalid (w : Word) : IsEncoding w ∨ InvalidWord w := by
  obtain h | h | h | h | h | h | h | h | h | h | h | h | h | h | h | h := nibble_cases (aField w)
  · exact .inl (isEncoding_family0 h)
  · exact .inl ⟨.jump _, rfl, encodeNNN_of_fields h⟩
  · exact .inl ⟨.callSubroutine _, rfl, encodeNNN_of_fields h⟩
  · exact .inl ⟨.skipIfEqValue _ _, rfl, encodeXNN_of_fields h rfl⟩
  · exact .inl ⟨.skipIfNotEqValue _ _, rfl, encodeXNN_of_fields h rfl⟩
  · by_cases hn : nField w = 0x0#4
    · exact .inl ⟨.skipIfEqRegister _ _, rfl, encodeXYN_of_fields h hn⟩
    · exact .inr (.inl ⟨h, hn⟩)
  · exact .inl ⟨.setRegisterToValue _ _, rfl, encodeXNN_of_fields h rfl⟩
  · exact .inl ⟨.addRegisterValue _ _, rfl, encodeXNN_of_fields h rfl⟩
  · exact isEncoding_or_invalid_family8 h
  · by_cases hn : nField w = 0x0#4
    · exact .inl ⟨.skipIfNotEqRegister _ _, rfl, encodeXYN_of_fields h hn⟩
    · exact .inr (.inr (.inr (.inl ⟨h, hn⟩)))
  · exact .inl ⟨.setIndex _, rfl, encodeNNN_of_fields h⟩
  · exact .inl ⟨.jumpPlus _, rfl, encodeNNN_of_fields h⟩
  · exact .inl ⟨.random _ _, rfl, encodeXNN_of_fields h rfl⟩
  · exact .inl ⟨.draw _ _ _, rfl, encodeXYN_of_fields h rfl⟩
  · exact isEncoding_or_invalid_familyE h
  · exact isEncoding_or_invalid_familyF h

/-- Settles O3: the word is the encoding of some instruction, and decoding that gives the instruction back. -/
theorem encodeOfDecodeIsTheWord : Obligations.EncodeOfDecodeIsTheWord := by
  intro w i h
  obtain henc | hinv := isEncoding_or_invalid w
  · obtain ⟨j, hj, hwf, hdecode⟩ := decodeWord_of_isEncoding henc
    obtain rfl : j = i := Except.ok.inj (hdecode.symm.trans h)
    exact ⟨hj, hwf⟩
  · have hnone := decodeWord_of_invalid hinv
    rw [h] at hnone
    cases hnone

/-- Settles O5: a word outside the table is an encoding, and so decodes. -/
theorem invalidWordsAreThoseOfTheTable : Obligations.InvalidWordsAreThoseOfTheTable := by
  refine fun w => ⟨fun hnone => (isEncoding_or_invalid w).resolve_left fun henc => ?_, decodeWord_of_invalid⟩
  obtain ⟨i, -, -, hdecode⟩ := decodeWord_of_isEncoding henc
  rw [hdecode] at hnone
  cases hnone

end Sys2Proof.Proofs
end

section
/-! SUPPORT. The rows the opcode map selects for a word (spec/30_encoding.md R92): for an encoding the row of its
instruction, for an invalid word none. -/

namespace Sys2Proof.Proofs

variable {i : Instr} {w : Word}

/-! ## What the map looks at -/

theorem and_mask_of_selects {row : OpcodeRow} (h : row.selects w = true) : w &&& row.mask = row.fixed :=
  of_decide_eq_true h

theorem aField_eq_of_and_F000 {v : Word} (h : v &&& 0xF000#16 = w &&& 0xF000#16) : aField v = aField w :=
  (aField_of_F000 h).trans (aField_of_F000 rfl).symm

/-- Every row fixes the family. -/
theorem aField_fixed_of_selects {row : OpcodeRow} (hrow : row ∈ opcodeMap) (h : row.selects w = true) :
    aField row.fixed = aField w := by
  have hmask : ∀ r ∈ opcodeMap, r.mask &&& 0xF000#16 = 0xF000#16 := by decide
  apply aField_eq_of_and_F000
  rw [← and_mask_of_selects h, BitVec.and_assoc, hmask row hrow]

/-- No row of family `a` looks at a bit outside `m`. -/
abbrev FamilyWithin (a : Nibble) (m : Word) : Prop :=
  m &&& 0xF000#16 = 0xF000#16 ∧ ∀ row ∈ opcodeMap, aField row.fixed = a → row.mask = m &&& row.mask

/-- The map does not see the bits that no row of the word's family looks at. -/
theorem mapRow_and {m : Word} (h : FamilyWithin (aField w) m) : mapRow (w &&& m) = mapRow w := by
  obtain ⟨hfamily, hwithin⟩ := h
  have ha : aField (w &&& m) = aField w := aField_eq_of_and_F000 (by rw [BitVec.and_assoc, hfamily])
  rw [mapRow, mapRow, List.find?_congr]
  intro row hrow
  rw [Bool.eq_iff_iff]
  by_cases hrowFamily : aField row.fixed = aField w
  · rw [OpcodeRow.selects, OpcodeRow.selects, BitVec.and_assoc, ← hwithin row hrow hrowFamily]
  · exact ⟨fun h => absurd ((aField_fixed_of_selects hrow h).trans ha) hrowFamily,
      fun h => absurd (aField_fixed_of_selects hrow h) hrowFamily⟩

/-! ## The row of an encoding -/

theorem mapRow_of_aField {a : Nibble} (ha : aField w = a) (h : FamilyWithin a 0xF000#16) :
    mapRow w = mapRow (encodeNNN a 0#12) := by
  rw [← mapRow_and (by rwa [ha]), and_F000, ha]

theorem mapRow_of_nField {a n : Nibble} (ha : aField w = a) (hn : nField w = n) (h : FamilyWithin a 0xF00F#16) :
    mapRow w = mapRow (encodeXYN a 0#4 0#4 n) := by
  rw [← mapRow_and (by rwa [ha]), and_F00F, ha, hn]

theorem mapRow_of_nnField {a : Nibble} {nn : Byte} (ha : aField w = a) (hnn : nnField w = nn)
    (h : FamilyWithin a 0xF0FF#16) : mapRow w = mapRow (encodeXNN a 0#4 nn) := by
  rw [← mapRow_and (by rwa [ha]), and_F0FF, ha, hnn]

/-- A row that looks at every bit selects one word. -/
theorem selects_exact (k : Nat) (fixed w : Word) :
    (⟨k, 0xFFFF#16, fixed⟩ : OpcodeRow).selects w = decide (w = fixed) := by
  rw [OpcodeRow.selects, show 0xFFFF#16 = BitVec.allOnes 16 from rfl, BitVec.and_allOnes]

/-- Rows 2 and 3 come first and are exact words; row 1 takes the rest of family 0. -/
theorem mapRow_machineRoutine {nnn : Addr12} (h : nnn.isMachineRoutine = true) :
    mapRow (encodeNNN 0x0#4 nnn) = some 1 := by
  obtain ⟨hclear, hreturn⟩ := isMachineRoutine_iff.mp h
  have hrow2 : encodeNNN 0x0#4 nnn ≠ 0x00E0#16 := fun heq => hclear (by rw [← nnnField_encodeNNN 0x0#4 nnn, heq]; rfl)
  have hrow3 : encodeNNN 0x0#4 nnn ≠ 0x00EE#16 := fun heq => hreturn (by rw [← nnnField_encodeNNN 0x0#4 nnn, heq]; rfl)
  have hrow1 : (⟨1, 0xF000#16, 0x0000#16⟩ : OpcodeRow).selects (encodeNNN 0x0#4 nnn) = true :=
    decide_eq_true (by rw [and_F000, aField_encodeNNN]; rfl)
  simp [mapRow, opcodeMap, selects_exact, hrow2, hrow3, hrow1]

theorem mapRow_encode (h : i.wf = true) : mapRow (encode i) = some i.number := by
  cases i
  case callMachineRoutine => exact mapRow_machineRoutine h
  case clearScreen | returnSubroutine => rfl
  case jump | callSubroutine | setIndex | jumpPlus => exact mapRow_of_aField (aField_encodeNNN _ _) (by decide)
  case skipIfEqValue | skipIfNotEqValue | setRegisterToValue | addRegisterValue | random =>
    exact mapRow_of_aField (aField_encodeXNN _ _ _) (by decide)
  case draw => exact mapRow_of_aField (aField_encodeXYN _ _ _ _) (by decide)
  case skipIfEqRegister | skipIfNotEqRegister | copy | orRegisters | andRegisters | xorRegisters | addRegisters |
      subRegisters | shiftRight | reverseSub | shiftLeft =>
    exact mapRow_of_nField (aField_encodeXYN _ _ _ _) (nField_encodeXYN _ _ _ _) (by decide)
  case skipIfKeyPressed | skipIfKeyNotPressed | getDelay | getKeyBlocking | setDelay | setSound | addToIndex |
      setIndexToSpriteChar | storeBCD | dumpRegisters | loadRegisters =>
    exact mapRow_of_nnField (aField_encodeXNN _ _ _) (nnField_encodeXNN _ _ _) (by decide)

/-! ## Invalid words -/

/-- Only the rows of the word's family matter. -/
theorem mapRow_eq_none {a : Nibble} (ha : aField w = a)
    (h : ∀ row ∈ opcodeMap, aField row.fixed = a → ¬ row.selects w = true) : mapRow w = none := by
  rw [mapRow, Option.map_eq_none_iff, List.find?_eq_none]
  exact fun row hrow hselects => h row hrow ((aField_fixed_of_selects hrow hselects).trans ha) hselects

/-- Nothing of the family is selected when each of its rows asks for another `n`. -/
theorem mapRow_eq_none_of_nField {a : Nibble} (P : Nibble → Prop)
    (hrows : ∀ row ∈ opcodeMap, aField row.fixed = a → row.mask = 0xF00F#16 ∧ ¬ P (nField row.fixed))
    (ha : aField w = a) (hn : P (nField w)) : mapRow w = none := by
  refine mapRow_eq_none ha fun row hrow hfamily hselects => ?_
  obtain ⟨hmask, hother⟩ := hrows row hrow hfamily
  obtain ⟨-, hsame⟩ := fields_of_F00F (hmask ▸ and_mask_of_selects hselects)
  exact hother (hsame ▸ hn)

/-- Nothing of the family is selected when each of its rows asks for another `nn`. -/
theorem mapRow_eq_none_of_nnField {a : Nibble} (P : Byte → Prop)
    (hrows : ∀ row ∈ opcodeMap, aField row.fixed = a → row.mask = 0xF0FF#16 ∧ ¬ P (nnField row.fixed))
    (ha : aField w = a) (hnn : P (nnField w)) : mapRow w = none := by
  refine mapRow_eq_none ha fun row hrow hfamily hselects => ?_
  obtain ⟨hmask, hother⟩ := hrows row hrow hfamily
  obtain ⟨-, hsame⟩ := fields_of_F0FF (hmask ▸ and_mask_of_selects hselects)
  exact hother (hsame ▸ hnn)

theorem mapRow_of_invalid (h : InvalidWord w) : mapRow w = none := by
  obtain ⟨ha, hn⟩ | ⟨ha, hn⟩ | ⟨ha, hn⟩ | ⟨ha, hnn⟩ | ⟨ha, hnn⟩ := h
  · exact mapRow_eq_none_of_nField (· ≠ 0x0#4) (by decide) ha hn
  · exact mapRow_eq_none_of_nField (· ∈ _) (by decide) ha hn
  · exact mapRow_eq_none_of_nField (· ≠ 0x0#4) (by decide) ha hn
  · exact mapRow_eq_none_of_nnField (· ∉ _) (by decide) ha hnn
  · exact mapRow_eq_none_of_nnField (· ∉ _) (by decide) ha hnn

/-- Settles O4: an encoding is on its instruction's row, and on an invalid word both accounts answer none. -/
theorem decodeFollowsTheOpcodeMap : Obligations.DecodeFollowsTheOpcodeMap := by
  intro w
  obtain henc | hinv := isEncoding_or_invalid w
  · obtain ⟨i, rfl, hwf, hdecode⟩ := decodeWord_of_isEncoding henc
    rw [hdecode, mapRow_encode hwf]
    rfl
  · rw [decodeWord_of_invalid hinv, mapRow_of_invalid hinv]
    rfl

end Sys2Proof.Proofs
end

section
/-! SUPPORT. A step answers a next state and runs the instruction that stands at `pc` (spec/40_cycle.md R111, R122). -/

namespace Sys2Proof.Proofs

open Sys2Proof.Machine

variable {s : State} {i : Instr}

/-! ## Every step is a transition (R122) -/

theorem exec_completes (i : Instr) (s : State) : ∃ t, exec i s = .next t := by
  obtain ⟨r, hraise⟩ | ⟨t, hnext, -⟩ := exec_cases i s
  · exact ⟨_, hraise.trans (raiseFault_eq i r s)⟩
  · exact ⟨t, hnext⟩

theorem execWith_completes (randIn : Byte) (i : Instr) (s : State) : ∃ t, execWith randIn i s = .next t := by
  obtain ⟨r, hraise⟩ | ⟨t, hnext, -⟩ := execWith_cases randIn i s
  · exact ⟨_, hraise.trans (raiseFault_eq i r s)⟩
  · exact ⟨t, hnext⟩

/-- A step completes when what executes the decoded instruction does: FAULTED and the two faults of the fetch and the
decoder are next states too (R113, R116, R121). -/
theorem stepBy_completes {run : Instr → State → Outcome} (hrun : ∀ i, ∃ t, run i s = .next t) :
    ∃ t, stepBy run s = .next t := by
  obtain ⟨-, hstep⟩ | ⟨-, -, hstep⟩ | ⟨-, -, w, e, -, -, hstep⟩ | ⟨-, -, w, i, -, -, hstep⟩ := stepBy_cases run s
  · exact ⟨s, hstep⟩
  · exact ⟨_, hstep.trans (enterFaulted_eq _ _ s)⟩
  · exact ⟨_, hstep.trans (enterFaulted_eq _ _ s)⟩
  · exact hstep ▸ hrun i

/-- Settles O42: no instruction stops the machine, with the free random byte or with any other. -/
theorem everyStepCompletes : Obligations.EveryStepCompletes := fun s =>
  ⟨stepBy_completes fun i => exec_completes i s, fun randIn => stepBy_completes fun i => execWith_completes randIn i s⟩

/-! ## What a step runs (R111) -/

/-- Settles O36: fetch and decode succeed, so the step is the `exec` of what was decoded. -/
theorem stepRunsTheDecodedInstruction : Obligations.StepRunsTheDecodedInstruction := fun _ _ => stepBy_run

/-! ## A word stored where the step fetches -/

theorem decodeWord_tableWord {nbits w : Nat} (h : decodeTableWord nbits w = some i) :
    decodeWord (tableWord nbits w) = .ok i := by
  rw [decodeTableWord, decode, wordOfBytes_bytes] at h
  cases hdecode : decodeWord (tableWord nbits w) with
  | error e =>
    rw [hdecode] at h
    cases h
  | ok j =>
    rw [hdecode] at h
    cases h
    rfl

/-- Both bytes a fetch reads from a state made ready are in memory. -/
theorem readyToFetch_pc_lt (s : State) : s.readyToFetch.pc.toNat + 1 < memorySize := by
  rw [State.readyToFetch, State.setPc_pc]
  split
  · assumption
  · decide

/-- The stored word is the one a fetch puts together. -/
theorem wordOfBytes_storeAtPc (h : Memory.wf s.mem = true) (w : Word) :
    wordOfBytes ((s.storeAtPc w).readByte (s.storeAtPc w).pc.toNat)
      ((s.storeAtPc w).readByte ((s.storeAtPc w).pc.toNat + 1)) = w := by
  have hread := Memory.read_writeBytes (bs := [highByte w, lowByte w]) h (readyToFetch_pc_lt s)
  simp [State.storeAtPc, hread]

theorem stepBy_storeAtPc {run : Instr → State → Outcome} {w : Word} (h : Memory.wf s.mem = true)
    (hdecode : decodeWord w = .ok i) : stepBy run (s.storeAtPc w) = run i (s.storeAtPc w) := by
  refine stepBy_run rfl (readyToFetch_pc_lt s) ?_
  rw [wordOfBytes_storeAtPc h, hdecode]

/-- Settles O37: the table word is stored at `pc`, the high byte first, and the fetch puts it together again. -/
theorem stepRunsTheStoredWord : Obligations.StepRunsTheStoredWord := fun _ _ _ hm hi =>
  stepBy_storeAtPc hm (decodeWord_tableWord hi)

end Sys2Proof.Proofs
end

section
/-! SUPPORT. The invariant along the host's operations: RESET establishes it, every operation keeps it, so every reachable
state has it (spec/60_exceptions.md R309, R323). -/

namespace Sys2Proof.Proofs

open Sys2Proof.Machine Sys2Proof.Safety

variable {s t : State}

/-- The invariant is about the memory, `pc`, the stack, the configuration and the fault record only. -/
theorem inv_of_same (hs : Inv s) (hmem : t.mem = s.mem) (hpc : t.pc = s.pc) (hstack : t.stack = s.stack)
    (hconfig : t.config = s.config) (hfault : t.fault = s.fault) : Inv t where
  memory := hmem ▸ hs.memory
  pc := hpc ▸ hs.pc
  entries := hstack ▸ hs.entries
  depth := hconfig ▸ hstack ▸ hs.depth
  record := hfault ▸ hpc ▸ hs.record

theorem inv_resetTo (s : State) {image : List Byte} (h : image.length ≤ maxImageLength) : Inv (s.resetTo image) where
  memory := Memory.wf_writeBytes rfl ((Nat.le_sub_iff_add_le' (by decide)).mp h)
  pc := show (BitVec.ofNat 16 loadAddress).toNat ≤ 0x10FE by decide
  entries _ hv := nomatch hv
  depth _ _ := Nat.zero_le _
  record _ hf := nomatch hf

theorem inv_of_cleanReset {image : List Byte} (h : CleanReset image s) : Inv s := by
  obtain ⟨hfits, before, rfl⟩ := h
  exact inv_resetTo before hfits

/-- As `exec`: with any random byte CXNN leaves a state that the invariant cannot tell from the one the free byte gives. -/
theorem execWith_keeps_inv {randIn : Byte} {i : Instr} (hs : Inv s) (hrunning : s.fault = none)
    (hp : s.pc.toNat + 1 < memorySize) (h : execWith randIn i s = .next t) : Inv t := by
  by_cases hrandom : ∃ x nn, i = .random x nn
  · obtain ⟨x, nn, rfl⟩ := hrandom
    cases h
    have hfree := exec_keeps_inv (i := .random x nn) hs hrunning hp rfl
    exact inv_of_same hfree rfl rfl rfl rfl rfl
  · rw [execWith_eq randIn i s fun x nn hi => hrandom ⟨x, nn, hi⟩] at h
    exact exec_keeps_inv hs hrunning hp h

theorem stepWith_keeps_inv {randIn : Byte} (hs : Inv s) (h : stepWith randIn s = .next t) : Inv t :=
  stepBy_keeps_inv (fun hrunning hp _ => execWith_keeps_inv hs hrunning hp) hs h

/-- RESET starts afresh, STEP keeps the invariant with any byte, and the others write nothing it speaks of. -/
theorem hostStep_keeps_inv {op : HostOp} (hs : Inv s) (h : hostStep op s = .next t) : Inv t := by
  obtain ⟨image, -, hfits, rfl⟩ | ⟨randIn, -, hstep⟩ | ⟨-, rfl⟩ | ⟨keysIn, -, rfl⟩ | ⟨-, rfl⟩ := hostStep_cases h
  · exact inv_resetTo s hfits
  · exact stepWith_keeps_inv hs hstep
  · exact inv_of_same hs rfl rfl rfl rfl rfl
  · exact inv_of_same hs rfl rfl rfl rfl rfl
  · exact hs

/-- Settles O52, by induction on the run: it begins with a RESET, and every operation keeps the invariant. -/
theorem reachableStatesMeetTheInvariant : Obligations.ReachableStatesMeetTheInvariant := by
  intro s hreach
  induction hreach with
  | reset hclean => exact inv_of_cleanReset hclean
  | after _ hop hinv => exact hostStep_keeps_inv hinv hop

end Sys2Proof.Proofs
end

section
/-! SUPPORT. Control transfer (spec/41_control.md R140 to R144): which words the five instructions are, where each leaves
`pc` and the stack, and that it changes nothing else. -/

namespace Sys2Proof.Proofs

open Sys2Proof.Machine Sys2Proof.Safety

variable {i : Instr} {w : Word} {s t : State} {ws : List Component}

/-! ## Words of an instruction, from the encoder (spec/30_encoding.md R92) -/

/-- A word is decoded to the well-formed instruction it is the encoding of. -/
theorem decodeWord_eq_of_encode (hw : encode i = w) (hwf : i.wf = true) : decodeWord w = .ok i :=
  hw ▸ decodeWord_encode hwf

/-- Every word of a family is the encoding of the instruction that `make` reads from it. -/
theorem encodedAs_of_encode {mask fixed : Word} {make : Word → Instr}
    (hencode : ∀ w, w &&& mask = fixed → encode (make w) = w) (hwf : ∀ w, (make w).wf = true) :
    EncodedAs mask fixed make := fun w hw => decodeWord_eq_of_encode (hencode w hw) (hwf w)

/-- A family of format NNN: `a` is fixed, `nnn` is read back. -/
theorem encodeNNN_of_F000 {fixed : Word} (h : w &&& 0xF000#16 = fixed) :
    encodeNNN (aField fixed) (nnnField w) = w := encodeNNN_of_fields (aField_of_F000 h)

/-- In family 0 only 0x00E0 and 0x00EE are no machine routine (R86). -/
theorem isMachineRoutine_nnnField (hw : encodeNNN 0x0#4 (nnnField w) = w) (hclear : w ≠ 0x00E0#16)
    (hreturn : w ≠ 0x00EE#16) : (nnnField w).isMachineRoutine = true := by
  refine isMachineRoutine_iff.mpr ⟨fun h => hclear ?_, fun h => hreturn ?_⟩
  · rw [← hw, h]
    rfl
  · rw [← hw, h]
    rfl

/-! ## Frames, one rule per state operation (spec/40_cycle.md R115) -/

theorem changesOnly_refl (ws : List Component) (s : State) : ChangesOnly ws s s := by
  intro c _
  cases c
  case memory | registers | keys => exact fun _ => rfl
  case framebuffer => exact fun _ _ => rfl
  case index | pc | stack | delay | sound | fault | config | draws => rfl

theorem changesOnly_setPc (h : ChangesOnly ws s t) (hpc : .pc ∈ ws) (a : Word) : ChangesOnly ws s (t.setPc a) := by
  intro c hc
  cases c
  case pc => exact absurd hpc hc
  all_goals exact h _ hc

theorem changesOnly_setStack (h : ChangesOnly ws s t) (hstack : .stack ∈ ws) (l : List Word) :
    ChangesOnly ws s (t.setStack l) := by
  intro c hc
  cases c
  case stack => exact absurd hstack hc
  all_goals exact h _ hc

theorem changesOnly_advance (hpc : .pc ∈ ws) (s : State) : ChangesOnly ws s s.advance :=
  changesOnly_setPc (changesOnly_refl ws s) hpc _

/-- The frame of 1NNN and BNNN: the default advance, then the jump. -/
theorem changesOnly_advance_setPc (s : State) (a : Word) : ChangesOnly [.pc] s (s.advance.setPc a) :=
  changesOnly_setPc (changesOnly_advance List.mem_cons_self s) List.mem_cons_self a

/-- The frame of 2NNN and 00EE: the default advance, the stack operation, then the jump. -/
theorem changesOnly_advance_setStack_setPc (s : State) (l : List Word) (a : Word) :
    ChangesOnly [.pc, .stack] s ((s.advance.setStack l).setPc a) :=
  have hpc : Component.pc ∈ [Component.pc, .stack] := List.mem_cons_self
  have hstack : Component.stack ∈ [Component.pc, .stack] := List.mem_cons_of_mem _ List.mem_cons_self
  changesOnly_setPc (changesOnly_setStack (changesOnly_advance hpc s) hstack l) hpc a

/-! ## What each instruction answers, with and without a fault (R141 to R144) -/

theorem exec_returnSubroutine_cons {top : Word} {rest : List Word} (h : s.stack = top :: rest) :
    exec .returnSubroutine s = .next ((s.advance.setStack rest).setPc top) := by
  rw [exec, execReturnSubroutine, h, pop_cons]

theorem exec_returnSubroutine_nil (h : s.stack = []) :
    exec .returnSubroutine s = .next (faultedState s .stackUnderflow 0x00EE#16 0#16) := by
  rw [exec, execReturnSubroutine, h, pop_nil]
  exact raiseFault_eq _ _ s

theorem exec_callSubroutine_ok (nnn : Addr12) (h : s.config.stackLimit ≠ some s.stack.length) :
    exec (.callSubroutine nnn) s =
      .next ((s.advance.setStack ((s.pc + 2#16) :: s.stack)).setPc (addrOperand nnn)) := by
  rw [exec, execCallSubroutine, push_ok _ h]
  rfl

theorem exec_callSubroutine_full (nnn : Addr12) (h : s.config.stackLimit = some s.stack.length) :
    exec (.callSubroutine nnn) s =
      .next (faultedState s .stackOverflow (encode (.callSubroutine nnn)) 0#16) := by
  rw [exec, execCallSubroutine, push_full _ h]
  exact raiseFault_eq _ _ s

theorem exec_jump (nnn : Addr12) (s : State) :
    exec (.jump nnn) s = .next (s.advance.setPc (addrOperand nnn)) := rfl

theorem exec_jumpPlus (nnn : Addr12) (s : State) :
    exec (.jumpPlus nnn) s = .next (s.advance.setPc (addrOperand nnn + s.wideV V0)) := rfl

/-! ## The obligations -/

/-- Settles O7: the two shapes of the stack are those of `pop`; the frame is that of advance, pop and jump. -/
theorem returnPopsTheStackIntoPc : Obligations.ReturnPopsTheStackIntoPc :=
  ⟨decodeWord_encode (i := .returnSubroutine) rfl,
    fun s top rest h =>
      ⟨_, exec_returnSubroutine_cons h, rfl, rfl, changesOnly_advance_setStack_setPc s rest top⟩,
    fun _ => exec_returnSubroutine_nil⟩

/-- Settles O9: `push` faults exactly at STACK_LIMIT; before it, the frame is that of advance, push and jump. -/
theorem callPushesTheReturnAddress : Obligations.CallPushesTheReturnAddress :=
  ⟨encodedAs_of_encode (fun _ => encodeNNN_of_F000) fun _ => rfl,
    fun nnn s h =>
      ⟨_, exec_callSubroutine_ok nnn h, toNat_addrOperand nnn, rfl, changesOnly_advance_setStack_setPc s _ _⟩,
    fun nnn _ => exec_callSubroutine_full nnn⟩

/-- Settles O6: what is left of family 0 is well-formed, and its meaning is the default advance. -/
theorem machineRoutineOnlyAdvancesPc : Obligations.MachineRoutineOnlyAdvancesPc := by
  constructor
  · intro w hfamily hclear hreturn
    have hw : encodeNNN 0x0#4 (nnnField w) = w := encodeNNN_of_F000 (fixed := 0x0000#16) hfamily
    exact decodeWord_eq_of_encode hw (isMachineRoutine_nnnField hw hclear hreturn)
  · intro _ s
    exact ⟨s.advance, rfl, rfl, changesOnly_advance List.mem_cons_self s⟩

/-- Settles O8: the jump overwrites the `pc` of the default advance with NNN. -/
theorem jumpSetsPc : Obligations.JumpSetsPc :=
  ⟨encodedAs_of_encode (fun _ => encodeNNN_of_F000) fun _ => rfl,
    fun nnn s => ⟨_, exec_jump nnn s, toNat_addrOperand nnn, changesOnly_advance_setPc s _⟩⟩

/-- Settles O10: the 16-bit sum of NNN and V0 is the sum of the numbers. -/
theorem jumpPlusAddsV0 : Obligations.JumpPlusAddsV0 :=
  ⟨encodedAs_of_encode (fun _ => encodeNNN_of_F000) fun _ => rfl,
    fun nnn s => ⟨_, exec_jumpPlus nnn s, toNat_addrOperand_add_wideV nnn s V0, changesOnly_advance_setPc s _⟩⟩

end Sys2Proof.Proofs
end

section
/-! SUPPORT. The conditional skips on registers (spec/42_skip.md R160 to R164): which words the four instructions are, that
each skips on the comparison of two bytes, and that it changes nothing but `pc`. -/

namespace Sys2Proof.Proofs

open Sys2Proof.Machine Sys2Proof.Safety

variable {w : Word} {s t : State} {ws : List Component}

/-! ## Words of formats XNN and XYN with fixed bits (spec/30_encoding.md R92) -/

/-- A family of format XNN: `a` is fixed, `x` and `nn` are read back. -/
theorem encodeXNN_of_F000 {fixed : Word} (h : w &&& 0xF000#16 = fixed) :
    encodeXNN (aField fixed) (xField w) (nnField w) = w := encodeXNN_of_fields (aField_of_F000 h) rfl

/-- A family of format XYN: `a` and `n` are fixed, `x` and `y` are read back. -/
theorem encodeXYN_of_F00F {fixed : Word} (h : w &&& 0xF00F#16 = fixed) :
    encodeXYN (aField fixed) (xField w) (yField w) (nField fixed) = w :=
  have ⟨ha, hn⟩ := fields_of_F00F h
  encodeXYN_of_fields ha hn

/-! ## The skip mechanism (R160) -/

theorem changesOnly_skipIf (h : ChangesOnly ws s t) (hpc : .pc ∈ ws) (c : Bool) : ChangesOnly ws s (t.skipIf c) := by
  cases c with
  | false => exact h
  | true => exact changesOnly_setPc h hpc _

/-- The frame of a skip: the default advance, then the further one or none. -/
theorem changesOnly_advance_skipIf (s : State) (c : Bool) : ChangesOnly [.pc] s (s.advance.skipIf c) :=
  changesOnly_skipIf (changesOnly_advance List.mem_cons_self s) List.mem_cons_self c

/-- R161, R163: a skip on equal bytes leaves A + 4 when their values are equal, else A + 2. -/
theorem advance_skipIf_eq_pc (s : State) (a b : Byte) :
    (s.advance.skipIf (a = b)).pc = if a.toNat = b.toNat then s.pc + 4#16 else s.pc + 2#16 := by
  rw [advance_skipIf_decide_pc, ← apply_ite (s.pc + ·)]
  simp only [BitVec.toNat_inj]

/-- R162, R164: a skip on different bytes leaves A + 2 when their values are equal, else A + 4. -/
theorem advance_skipIf_ne_pc (s : State) (a b : Byte) :
    (s.advance.skipIf (a ≠ b)).pc = if a.toNat = b.toNat then s.pc + 2#16 else s.pc + 4#16 := by
  rw [advance_skipIf_decide_pc, ← apply_ite (s.pc + ·)]
  simp only [BitVec.toNat_inj, ne_eq, ite_not]

/-! ## What each instruction answers -/

theorem exec_skipIfEqValue (x : Reg) (nn : Byte) (s : State) :
    exec (.skipIfEqValue x nn) s = .next (s.advance.skipIf (s.readV x = nn)) := rfl

theorem exec_skipIfNotEqValue (x : Reg) (nn : Byte) (s : State) :
    exec (.skipIfNotEqValue x nn) s = .next (s.advance.skipIf (s.readV x ≠ nn)) := rfl

theorem exec_skipIfEqRegister (x y : Reg) (s : State) :
    exec (.skipIfEqRegister x y) s = .next (s.advance.skipIf (s.readV x = s.readV y)) := rfl

theorem exec_skipIfNotEqRegister (x y : Reg) (s : State) :
    exec (.skipIfNotEqRegister x y) s = .next (s.advance.skipIf (s.readV x ≠ s.readV y)) := rfl

/-! ## The obligations -/

/-- Settles O11: both instructions compare Vx with NN, and their frame is that of advance and skip. -/
theorem immediateSkipsTestVx : Obligations.ImmediateSkipsTestVx :=
  ⟨encodedAs_of_encode (fun _ => encodeXNN_of_F000) fun _ => rfl,
    encodedAs_of_encode (fun _ => encodeXNN_of_F000) fun _ => rfl,
    fun x nn s =>
      ⟨⟨_, exec_skipIfEqValue x nn s, advance_skipIf_eq_pc s _ _, changesOnly_advance_skipIf s _⟩,
        ⟨_, exec_skipIfNotEqValue x nn s, advance_skipIf_ne_pc s _ _, changesOnly_advance_skipIf s _⟩⟩⟩

/-- Settles O12: both instructions compare Vx with Vy; the words with another `n` stand in the table of invalid words. -/
theorem registerSkipsCompareVxVy : Obligations.RegisterSkipsCompareVxVy := by
  refine ⟨encodedAs_of_encode (fun _ => encodeXYN_of_F00F) fun _ => rfl,
    encodedAs_of_encode (fun _ => encodeXYN_of_F00F) fun _ => rfl, ?invalid, fun x y s =>
      ⟨⟨_, exec_skipIfEqRegister x y s, advance_skipIf_eq_pc s _ _, changesOnly_advance_skipIf s _⟩,
        ⟨_, exec_skipIfNotEqRegister x y s, advance_skipIf_ne_pc s _ _, changesOnly_advance_skipIf s _⟩⟩⟩
  case invalid =>
    intro w ha hn
    apply decodeWord_of_invalid
    obtain h5 | h9 := ha
    · exact .inl ⟨h5, hn⟩
    · exact .inr (.inr (.inl ⟨h9, hn⟩))

end Sys2Proof.Proofs
end

section
/-! SUPPORT. Register arithmetic and logic (spec/43_alu.md R180 to R192): which words the twelve instructions are, what
each leaves in Vx and VF, that it changes nothing else, and that only CXNN uses the random byte of its step. -/

namespace Sys2Proof.Proofs

open Sys2Proof.Machine Sys2Proof.Safety

variable {i : Instr} {s t : State} {ws : List Component} {rs : List Reg} {x : Reg}

/-! ## Frames, one rule per state operation (spec/40_cycle.md R115) -/

theorem changesOnly_writeV (h : ChangesOnly ws s t) (hregisters : .registers ∈ ws) (x : Reg) (b : Byte) :
    ChangesOnly ws s (t.writeV x b) := by
  intro c hc
  cases c
  case registers => exact absurd hregisters hc
  all_goals exact h _ hc

theorem changesOnly_countDraw (h : ChangesOnly ws s t) (hdraws : .draws ∈ ws) : ChangesOnly ws s t.countDraw := by
  intro c hc
  cases c
  case draws => exact absurd hdraws hc
  all_goals exact h _ hc

theorem keepsRegistersBut_advance (rs : List Reg) (s : State) : KeepsRegistersBut rs s s.advance := fun _ _ => rfl

theorem keepsRegistersBut_writeV (h : KeepsRegistersBut rs s t) (hx : x ∈ rs) (b : Byte) :
    KeepsRegistersBut rs s (t.writeV x b) := by
  intro r hr
  have hrx : r ≠ x := fun e => hr (e ▸ hx)
  rw [State.writeV_readV, if_neg hrx]
  exact h r hr

theorem changesOnly_advance_writeV (hregisters : .registers ∈ ws) (hpc : .pc ∈ ws) (s : State) (x : Reg)
    (b : Byte) : ChangesOnly ws s (s.advance.writeV x b) :=
  changesOnly_writeV (changesOnly_advance hpc s) hregisters x b

theorem keepsRegistersBut_advance_writeV (s : State) (x : Reg) (b : Byte) :
    KeepsRegistersBut [x] s (s.advance.writeV x b) :=
  keepsRegistersBut_writeV (keepsRegistersBut_advance [x] s) List.mem_cons_self b

/-! ## One write: Vx, and VF only when it is Vx (R181 to R186) -/

theorem readV_writeV_same (s : State) (x : Reg) (b : Byte) : (s.writeV x b).readV x = b := by
  rw [State.writeV_readV, if_pos rfl]

theorem readV_writeV_of_ne {r : Reg} (h : r ≠ x) (s : State) (b : Byte) : (s.writeV x b).readV r = s.readV r := by
  rw [State.writeV_readV, if_neg h]

/-- The frame of an instruction that writes Vx alone. -/
theorem advance_writeV_frame (s : State) (x : Reg) (b : Byte) :
    (s.advance.writeV x b).pc = s.pc + 2#16 ∧ KeepsRegistersBut [x] s (s.advance.writeV x b) ∧
      ChangesOnly [.registers, .pc] s (s.advance.writeV x b) :=
  ⟨rfl, keepsRegistersBut_advance_writeV s x b, changesOnly_advance_writeV (by decide) (by decide) s x b⟩

/-! ## Two writes in the order of R180: the later one remains when x = 15 (D9) -/

theorem writeResultThenFlag_readV_VF (s : State) (x : Reg) (result flag : Byte) :
    (s.writeResultThenFlag x result flag).readV VF = flag := readV_writeV_same _ VF flag

theorem writeResultThenFlag_readV (h : x ≠ VF) (s : State) (result flag : Byte) :
    (s.writeResultThenFlag x result flag).readV x = result :=
  (readV_writeV_of_ne h _ flag).trans (readV_writeV_same s x result)

theorem writeFlagThenResult_readV (s : State) (x : Reg) (flag result : Byte) :
    (s.writeFlagThenResult x flag result).readV x = result := readV_writeV_same _ x result

theorem writeFlagThenResult_readV_VF (h : x ≠ VF) (s : State) (flag result : Byte) :
    (s.writeFlagThenResult x flag result).readV VF = flag :=
  (readV_writeV_of_ne h.symm _ result).trans (readV_writeV_same s VF flag)

/-- The frame of two writes whose registers are both Vx or VF, in either order. -/
theorem advance_writeV_writeV_frame {r r' : Reg} (hr : r ∈ [x, VF]) (hr' : r' ∈ [x, VF]) (s : State) (b b' : Byte) :
    ((s.advance.writeV r b).writeV r' b').pc = s.pc + 2#16 ∧
      KeepsRegistersBut [x, VF] s ((s.advance.writeV r b).writeV r' b') ∧
      ChangesOnly [.registers, .pc] s ((s.advance.writeV r b).writeV r' b') :=
  have hkeeps := keepsRegistersBut_writeV (keepsRegistersBut_advance [x, VF] s) hr b
  ⟨rfl, keepsRegistersBut_writeV hkeeps hr' b',
    changesOnly_writeV (changesOnly_advance_writeV (by decide) (by decide) s r b) (by decide) r' b'⟩

theorem advance_writeResultThenFlag_frame (s : State) (x : Reg) (result flag : Byte) :
    (s.advance.writeResultThenFlag x result flag).pc = s.pc + 2#16 ∧
      KeepsRegistersBut [x, VF] s (s.advance.writeResultThenFlag x result flag) ∧
      ChangesOnly [.registers, .pc] s (s.advance.writeResultThenFlag x result flag) :=
  advance_writeV_writeV_frame (by simp) (by simp) s result flag

theorem advance_writeFlagThenResult_frame (s : State) (x : Reg) (flag result : Byte) :
    (s.advance.writeFlagThenResult x flag result).pc = s.pc + 2#16 ∧
      KeepsRegistersBut [x, VF] s (s.advance.writeFlagThenResult x flag result) ∧
      ChangesOnly [.registers, .pc] s (s.advance.writeFlagThenResult x flag result) :=
  advance_writeV_writeV_frame (by simp) (by simp) s flag result

/-! ## Flags and results as numbers (R36, R187 to R191) -/

theorem flagByte_decide (p : Prop) [Decidable p] : flagByte (decide p) = if p then 1#8 else 0#8 := by
  simp only [flagByte, decide_eq_true_eq]

theorem carryFlag_eq (a b : Byte) : carryFlag a b = if a.toNat + b.toNat > 255 then 1#8 else 0#8 := flagByte_decide _

theorem noBorrowFlag_eq (a b : Byte) : noBorrowFlag a b = if a.toNat ≥ b.toNat then 1#8 else 0#8 := flagByte_decide _

theorem toNat_lowBitFlag (a : Byte) : (lowBitFlag a).toNat = a.toNat % 2 :=
  (BitVec.toNat_and a 1#8).trans (Nat.and_one_is_mod a.toNat)

theorem toNat_highBitFlag (a : Byte) : (highBitFlag a).toNat = a.toNat / 128 :=
  (BitVec.toNat_ushiftRight a 7).trans (Nat.shiftRight_eq_div_pow a.toNat 7)

/-- The difference of two bytes is the integers' difference modulo 256. -/
theorem toNat_sub_emod (a b : Byte) : ((a - b).toNat : Int) = (a.toNat - b.toNat : Int) % 256 := by
  have ha := a.isLt
  have hb := b.isLt
  rw [BitVec.toNat_sub]
  omega

theorem toNat_ushiftRight_one (a : Byte) : (a >>> 1).toNat = a.toNat / 2 :=
  (BitVec.toNat_ushiftRight a 1).trans (Nat.shiftRight_one a.toNat)

theorem toNat_shiftLeft_one (a : Byte) : (a <<< 1).toNat = a.toNat * 2 % 256 := by
  rw [BitVec.toNat_shiftLeft, Nat.shiftLeft_eq]

/-! ## What each instruction answers -/

theorem exec_setRegisterToValue (x : Reg) (nn : Byte) (s : State) :
    exec (.setRegisterToValue x nn) s = .next (s.advance.writeV x nn) := rfl

theorem exec_addRegisterValue (x : Reg) (nn : Byte) (s : State) :
    exec (.addRegisterValue x nn) s = .next (s.advance.writeV x (s.readV x + nn)) := rfl

theorem exec_copy (x y : Reg) (s : State) : exec (.copy x y) s = .next (s.advance.writeV x (s.readV y)) := rfl

theorem exec_orRegisters (x y : Reg) (s : State) :
    exec (.orRegisters x y) s = .next (s.advance.writeV x (s.readV x ||| s.readV y)) := rfl

theorem exec_andRegisters (x y : Reg) (s : State) :
    exec (.andRegisters x y) s = .next (s.advance.writeV x (s.readV x &&& s.readV y)) := rfl

theorem exec_xorRegisters (x y : Reg) (s : State) :
    exec (.xorRegisters x y) s = .next (s.advance.writeV x (s.readV x ^^^ s.readV y)) := rfl

theorem exec_addRegisters (x y : Reg) (s : State) :
    exec (.addRegisters x y) s =
      .next (s.advance.writeResultThenFlag x (s.readV x + s.readV y) (carryFlag (s.readV x) (s.readV y))) := rfl

theorem exec_subRegisters (x y : Reg) (s : State) :
    exec (.subRegisters x y) s =
      .next (s.advance.writeResultThenFlag x (s.readV x - s.readV y) (noBorrowFlag (s.readV x) (s.readV y))) := rfl

theorem exec_reverseSub (x y : Reg) (s : State) :
    exec (.reverseSub x y) s =
      .next (s.advance.writeResultThenFlag x (s.readV y - s.readV x) (noBorrowFlag (s.readV y) (s.readV x))) := rfl

theorem exec_shiftRight (x y : Reg) (s : State) :
    exec (.shiftRight x y) s =
      .next (s.advance.writeFlagThenResult x (lowBitFlag (s.readV x)) (s.readV x >>> 1)) := rfl

theorem exec_shiftLeft (x y : Reg) (s : State) :
    exec (.shiftLeft x y) s =
      .next (s.advance.writeFlagThenResult x (highBitFlag (s.readV x)) (s.readV x <<< 1)) := rfl

theorem execWith_random (randIn : Byte) (x : Reg) (nn : Byte) (s : State) :
    execWith randIn (.random x nn) s = .next (s.advance.writeV x (randIn &&& nn)).countDraw := rfl

theorem exec_random (x : Reg) (nn : Byte) (s : State) :
    exec (.random x nn) s = .next (s.advance.writeV x (Config.randIn s.randCount &&& nn)).countDraw := rfl

/-! ## The instructions with a flag -/

/-- Settles O17: the sum stands in Vx unless the carry, written later, takes its place. -/
theorem addRegistersSetsCarry : Obligations.AddRegistersSetsCarry := by
  refine ⟨encodedAs_of_encode (fun _ => encodeXYN_of_F00F) fun _ => rfl, fun x y s =>
    ⟨_, exec_addRegisters x y s, ?carry, fun hx => ?sum, advance_writeResultThenFlag_frame s x _ _⟩⟩
  case carry => exact (writeResultThenFlag_readV_VF _ x _ _).trans (carryFlag_eq _ _)
  case sum =>
    rw [writeResultThenFlag_readV hx]
    exact BitVec.toNat_add _ _

/-- What 8XY5 and 8XY7 leave, for the minuend `a` and the subtrahend `b`. -/
theorem advance_subtract_spec (s : State) (x : Reg) (a b : Byte) :
    ((s.advance.writeResultThenFlag x (a - b) (noBorrowFlag a b)).readV VF =
        if a.toNat ≥ b.toNat then 1#8 else 0#8) ∧
      (x ≠ VF → (((s.advance.writeResultThenFlag x (a - b) (noBorrowFlag a b)).readV x).toNat : Int) =
        (a.toNat - b.toNat : Int) % 256) := by
  constructor
  · exact (writeResultThenFlag_readV_VF _ x _ _).trans (noBorrowFlag_eq a b)
  · intro hx
    rw [writeResultThenFlag_readV hx]
    exact toNat_sub_emod a b

/-- Settles O18: both are the one subtraction, with the operands in either order. -/
theorem subtractionsSetNoBorrow : Obligations.SubtractionsSetNoBorrow := by
  refine ⟨encodedAs_of_encode (fun _ => encodeXYN_of_F00F) fun _ => rfl,
    encodedAs_of_encode (fun _ => encodeXYN_of_F00F) fun _ => rfl, fun x y s => ⟨?sub, ?reverse⟩⟩
  case sub =>
    obtain ⟨hflag, hdifference⟩ := advance_subtract_spec s x (s.readV x) (s.readV y)
    exact ⟨_, exec_subRegisters x y s, hflag, hdifference, advance_writeResultThenFlag_frame s x _ _⟩
  case reverse =>
    obtain ⟨hflag, hdifference⟩ := advance_subtract_spec s x (s.readV y) (s.readV x)
    exact ⟨_, exec_reverseSub x y s, hflag, hdifference, advance_writeResultThenFlag_frame s x _ _⟩

/-- Settles O19: the bit shifted out stands in VF unless the shifted value, written later, takes its place. -/
theorem shiftsSetTheBitShiftedOut : Obligations.ShiftsSetTheBitShiftedOut := by
  refine ⟨encodedAs_of_encode (fun _ => encodeXYN_of_F00F) fun _ => rfl,
    encodedAs_of_encode (fun _ => encodeXYN_of_F00F) fun _ => rfl, fun x y s =>
      ⟨⟨_, exec_shiftRight x y s, ?half, fun hx => ?lowBit, advance_writeFlagThenResult_frame s x _ _⟩,
        ⟨_, exec_shiftLeft x y s, ?double, fun hx => ?highBit, advance_writeFlagThenResult_frame s x _ _⟩⟩⟩
  case half =>
    rw [writeFlagThenResult_readV]
    exact toNat_ushiftRight_one _
  case lowBit => exact (congrArg _ (writeFlagThenResult_readV_VF hx _ _ _)).trans (toNat_lowBitFlag _)
  case double =>
    rw [writeFlagThenResult_readV]
    exact toNat_shiftLeft_one _
  case highBit => exact (congrArg _ (writeFlagThenResult_readV_VF hx _ _ _)).trans (toNat_highBitFlag _)

/-! ## The random byte (R192, R316) -/

theorem nextInstr_of_decodeWord (hp : s.pc.toNat + 1 < memorySize)
    (hd : decodeWord (wordOfBytes (s.readByte s.pc.toNat) (s.readByte (s.pc.toNat + 1))) = .ok i) :
    s.nextInstr = some i := by
  rw [State.readByte, State.readByte] at hd
  simp only [State.nextInstr, fetch16_ok _ hp, hd, Except.toOption]

/-- A step depends on the meaning of no instruction but the one the state has next. -/
theorem stepBy_congr {run run' : Instr → State → Outcome}
    (h : ∀ i, s.nextInstr = some i → run i s = run' i s) : stepBy run s = stepBy run' s := by
  obtain ⟨hfault, hstep⟩ | ⟨hrunning, hp, hstep⟩ | ⟨hrunning, hp, w, e, rfl, hd, hstep⟩ |
    ⟨hrunning, hp, w, i, rfl, hd, hstep⟩ := stepBy_cases run s
  · rw [hstep, stepBy_faulted hfault]
  · rw [hstep, stepBy_fetchFault hrunning hp]
  · rw [hstep, stepBy_invalid hrunning hp hd]
  · rw [hstep, stepBy_run hrunning hp hd]
    exact h i (nextInstr_of_decodeWord hp hd)

/-- Settles O48: without CXNN both steps run `exec`; with it the byte given is the one that is masked. -/
theorem onlyRandomUsesTheRandomByte : Obligations.OnlyRandomUsesTheRandomByte := by
  constructor
  · intro r r' s hnext
    refine stepBy_congr fun i hi => ?_
    have hi' : ∀ x nn, i ≠ .random x nn := fun x nn e => hnext x nn (e ▸ hi)
    rw [execWith_eq r i s hi', execWith_eq r' i s hi']
  · intro r s x nn hrunning hnext
    exact ⟨_, (stepBy_nextInstr hrunning hnext).trans (execWith_random r x nn s), readV_writeV_same s.advance x _⟩

/-- Settles O20: CXNN is a write of Vx and a count of the draw. -/
theorem randomMasksTheDrawnByte : Obligations.RandomMasksTheDrawnByte := by
  refine ⟨encodedAs_of_encode (fun _ => encodeXNN_of_F000) fun _ => rfl, fun x nn s =>
    ⟨_, exec_random x nn s, fun k => ?masked, rfl, rfl, keepsRegistersBut_advance_writeV s x _, ?frame⟩⟩
  case masked =>
    rw [State.countDraw_readV, readV_writeV_same]
    exact BitVec.getLsbD_and
  case frame => exact changesOnly_countDraw (changesOnly_advance_writeV (by decide) (by decide) s x _) (by decide)

/-! ## The instructions without a flag -/

/-- Settles O13: the one write is of NN. -/
theorem setRegisterWritesImmediate : Obligations.SetRegisterWritesImmediate :=
  ⟨encodedAs_of_encode (fun _ => encodeXNN_of_F000) fun _ => rfl, fun x nn s =>
    ⟨_, exec_setRegisterToValue x nn s, readV_writeV_same _ x nn, advance_writeV_frame s x nn⟩⟩

/-- Settles O14: the one write is of the 8-bit sum. -/
theorem addImmediateWrapsWithoutFlag : Obligations.AddImmediateWrapsWithoutFlag := by
  refine ⟨encodedAs_of_encode (fun _ => encodeXNN_of_F000) fun _ => rfl, fun x nn s =>
    ⟨_, exec_addRegisterValue x nn s, ?sum, advance_writeV_frame s x _⟩⟩
  case sum =>
    rw [readV_writeV_same]
    exact BitVec.toNat_add _ nn

/-- Settles O15: the one write is of Vy as it was. -/
theorem copyMovesVyToVx : Obligations.CopyMovesVyToVx :=
  ⟨encodedAs_of_encode (fun _ => encodeXYN_of_F00F) fun _ => rfl, fun x y s =>
    ⟨_, exec_copy x y s, readV_writeV_same _ x _, advance_writeV_frame s x _⟩⟩

/-- Settles O16: the one write of each is of the word operation, which works bit by bit. -/
theorem logicIsBitwiseWithoutFlag : Obligations.LogicIsBitwiseWithoutFlag := by
  refine ⟨encodedAs_of_encode (fun _ => encodeXYN_of_F00F) fun _ => rfl,
    encodedAs_of_encode (fun _ => encodeXYN_of_F00F) fun _ => rfl,
    encodedAs_of_encode (fun _ => encodeXYN_of_F00F) fun _ => rfl, fun x y s =>
      ⟨⟨_, exec_orRegisters x y s, fun k => ?or, advance_writeV_frame s x _⟩,
        ⟨_, exec_andRegisters x y s, fun k => ?and, advance_writeV_frame s x _⟩,
        ⟨_, exec_xorRegisters x y s, fun k => ?xor, advance_writeV_frame s x _⟩⟩⟩
  case or => rw [readV_writeV_same, BitVec.getLsbD_or]
  case and => rw [readV_writeV_same, BitVec.getLsbD_and]
  case xor => rw [readV_writeV_same, BitVec.getLsbD_xor]

end Sys2Proof.Proofs
end

section
/-! SUPPORT. Index register and memory transfer (spec/44_index_memory.md R220 to R226): which words the six instructions
are, what each leaves in I, memory and the registers, where it faults, and that a later fetch sees what was stored. -/

namespace Sys2Proof.Proofs

open Sys2Proof.Machine Sys2Proof.Safety

variable {w : Word} {s t : State} {ws : List Component} {x : Reg} {bs : List Byte}

/-! ## Words of format XNN with a fixed second byte (spec/30_encoding.md R92) -/

/-- A family of format XS: `a` and `nn` are fixed, `x` is read back. -/
theorem encodeXNN_of_F0FF {fixed : Word} (h : w &&& 0xF0FF#16 = fixed) :
    encodeXNN (aField fixed) (xField w) (nnField fixed) = w :=
  have ⟨ha, hnn⟩ := fields_of_F0FF h
  encodeXNN_of_fields ha hnn

/-! ## Frames, one rule per state operation (spec/40_cycle.md R115) -/

theorem changesOnly_setI (h : ChangesOnly ws s t) (hindex : .index ∈ ws) (a : Word) : ChangesOnly ws s (t.setI a) := by
  intro c hc
  cases c
  case index => exact absurd hindex hc
  all_goals exact h _ hc

theorem changesOnly_setMem (h : ChangesOnly ws s t) (hmemory : .memory ∈ ws) (m : Memory) :
    ChangesOnly ws s (t.setMem m) := by
  intro c hc
  cases c
  case memory => exact absurd hmemory hc
  all_goals exact h _ hc

theorem changesOnly_loadRegistersFrom (h : ChangesOnly ws s t) (hregisters : .registers ∈ ws) (k : Nat)
    (bs : List Byte) : ChangesOnly ws s (t.loadRegistersFrom k bs) := by
  induction bs generalizing t k with
  | nil => exact h
  | cons b bs ih => exact ih (changesOnly_writeV h hregisters (regOfNat k) b) (k + 1)

/-- The frame of ANNN and FX1E. -/
theorem changesOnly_advance_setI (s : State) (a : Word) : ChangesOnly [.index, .pc] s (s.advance.setI a) :=
  changesOnly_setI (changesOnly_advance (by decide) s) (by decide) a

/-! ## The lowest bad address of an access (R226, D25) -/

theorem ofNat_dataBase (s : State) : BitVec.ofNat 16 s.dataBase = s.I := by
  rw [State.dataBase, BitVec.ofNat_toNat, BitVec.setWidth_eq]

/-- An access that leaves memory goes bad at its first address, or at the first one behind memory. -/
theorem ofNat_max_dataBase (s : State) :
    BitVec.ofNat 16 (max s.dataBase memorySize) = if s.dataBase < 0x1000 then 0x1000#16 else s.I := by
  split
  · next h => exact congrArg _ (Nat.max_eq_right (Nat.le_of_lt h))
  · next h => exact (congrArg _ (Nat.max_eq_left (Nat.le_of_not_lt h))).trans (ofNat_dataBase s)

/-! ## Bytes stored from I on: what FX33 and FX55 share (R223, R224) -/

/-- The answer of an instruction that stores bytes from I on. -/
def storeAnswer (i : Instr) (bs : List Byte) (s : State) : Outcome :=
  match writeChecked s.mem s.dataBase bs with
  | .error r => raiseFault i r s
  | .ok m => .next (s.advance.setMem m)

/-- The state after a store that raised no fault. -/
def afterStore (s : State) (bs : List Byte) : State :=
  s.advance.setMem (Memory.writeBytes s.mem s.dataBase bs)

theorem exec_storeBCD (x : Reg) (s : State) :
    exec (.storeBCD x) s = storeAnswer (.storeBCD x) (bcdDigits (s.readV x)) s := rfl

theorem exec_dumpRegisters (x : Reg) (s : State) :
    exec (.dumpRegisters x) s = storeAnswer (.dumpRegisters x) (s.registersFrom 0 (registerCount x)) s := rfl

theorem storeAnswer_ok (i : Instr) (hlow : firstWritable ≤ s.dataBase) (hfit : s.dataBase + bs.length ≤ memorySize) :
    storeAnswer i bs s = .next (afterStore s bs) := by
  rw [storeAnswer, writeChecked_ok _ hlow hfit, afterStore]

theorem storeAnswer_reserved (i : Instr) (hbs : 0 < bs.length) (hlow : s.dataBase < firstWritable) :
    storeAnswer i bs s = .next (faultedState s .reservedWrite (encode i) s.I) := by
  rw [storeAnswer, writeChecked_reserved _ hbs hlow, ofNat_dataBase]
  exact raiseFault_eq _ _ s

theorem storeAnswer_outside (i : Instr) (hbs : 0 < bs.length) (hlow : firstWritable ≤ s.dataBase)
    (hout : memorySize < s.dataBase + bs.length) :
    storeAnswer i bs s = .next (faultedState s .memOutOfRange (encode i)
      (if s.dataBase < 0x1000 then 0x1000#16 else s.I)) := by
  rw [storeAnswer, writeChecked_outside _ hbs hlow hout, ofNat_max_dataBase]
  exact raiseFault_eq _ _ s

theorem afterStore_changesOnly (s : State) (bs : List Byte) : ChangesOnly [.memory, .pc] s (afterStore s bs) :=
  changesOnly_setMem (changesOnly_advance (by decide) s) (by decide) _

theorem afterStore_readByte_stored (hm : Memory.wf s.mem = true) (hfit : s.dataBase + bs.length ≤ memorySize)
    {k : Nat} {b : Byte} (hk : bs[k]? = some b) : (afterStore s bs).readByte (s.dataBase + k) = b := by
  rw [afterStore, State.setMem_readByte, Memory.read_writeBytes hm hfit, if_pos (Nat.le_add_right _ k),
    Nat.add_sub_cancel_left, hk, Option.getD_some]

theorem afterStore_readByte_outside (hm : Memory.wf s.mem = true) (hfit : s.dataBase + bs.length ≤ memorySize)
    {a : Nat} (ha : a < s.dataBase ∨ s.dataBase + bs.length ≤ a) : (afterStore s bs).readByte a = s.readByte a :=
  Memory.read_writeBytes_outside hm hfit ha

/-- Every byte after a store of the bytes `byte 0`, `byte 1`, and so on. -/
theorem afterStore_readByte (hm : Memory.wf s.mem = true) (hfit : s.dataBase + bs.length ≤ memorySize)
    {byte : Nat → Byte} (hbyte : ∀ k, k < bs.length → bs[k]? = some (byte k)) (a : Nat) :
    (afterStore s bs).readByte a =
      if s.dataBase ≤ a ∧ a < s.dataBase + bs.length then byte (a - s.dataBase) else s.readByte a := by
  split
  · next ha =>
    obtain ⟨k, rfl⟩ := Nat.exists_eq_add_of_le ha.1
    rw [Nat.add_sub_cancel_left]
    exact afterStore_readByte_stored hm hfit (hbyte k (by omega))
  · exact afterStore_readByte_outside hm hfit (by omega)

/-! ## FX33: the decimal digits (R223) -/

/-- A number up to a byte's value, as each decimal digit of the byte is, fits a byte. -/
theorem toNat_ofNat_of_le (b : Byte) {n : Nat} (h : n ≤ b.toNat) : (BitVec.ofNat 8 n).toNat = n :=
  (BitVec.toNat_ofNat n 8).trans (Nat.mod_eq_of_lt (Nat.lt_of_le_of_lt h b.isLt))

theorem exec_storeBCD_ok (x : Reg) (hlow : 0x200 ≤ s.dataBase) (hfit : s.dataBase + 3 ≤ 0x1000) :
    exec (.storeBCD x) s = .next (afterStore s (bcdDigits (s.readV x))) :=
  (exec_storeBCD x s).trans (storeAnswer_ok _ hlow hfit)

/-- Settles O24: the checked write stores the three digits or faults at the lowest bad address. -/
theorem storeBcdStoresThreeDigits : Obligations.StoreBcdStoresThreeDigits := by
  refine ⟨encodedAs_of_encode (fun _ => encodeXNN_of_F0FF) fun _ => rfl, ?stored, ?reserved, ?outside⟩
  case stored =>
    intro x s hm hlow hfit
    have hbytes : s.dataBase + (bcdDigits (s.readV x)).length ≤ memorySize := hfit
    refine ⟨_, exec_storeBCD_ok x hlow hfit, ?hundreds, ?tens, ?ones, fun a => afterStore_readByte_outside hm hbytes,
      rfl, afterStore_changesOnly s _⟩
    case hundreds =>
      exact (congrArg _ (afterStore_readByte_stored (k := 0) hm hbytes rfl)).trans
        (toNat_ofNat_of_le _ (Nat.div_le_self _ _))
    case tens =>
      exact (congrArg _ (afterStore_readByte_stored hm hbytes rfl)).trans
        (toNat_ofNat_of_le _ ((Nat.mod_le _ _).trans (Nat.div_le_self _ _)))
    case ones =>
      exact (congrArg _ (afterStore_readByte_stored hm hbytes rfl)).trans (toNat_ofNat_of_le _ (Nat.mod_le _ _))
  case reserved => exact fun x s hlow => storeAnswer_reserved (.storeBCD x) (Nat.succ_pos _) hlow
  case outside =>
    intro x s hout
    exact storeAnswer_outside (.storeBCD x) (Nat.succ_pos _) (show 0x200 ≤ s.dataBase by omega) hout

/-! ## FX55: the registers (R224) -/

theorem length_registersFrom_registerCount (s : State) (x : Reg) :
    (s.registersFrom 0 (registerCount x)).length = x.toNat + 1 := State.registersFrom_length s 0 _

theorem registersFrom_zero_getElem? (s : State) {n k : Nat} (h : k < n) :
    (s.registersFrom 0 n)[k]? = some (s.readV (regOfNat k)) := by
  rw [State.registersFrom_getElem?, if_pos h, Nat.zero_add]

theorem dump_fits (hfit : s.dataBase + x.toNat < 0x1000) :
    s.dataBase + (s.registersFrom 0 (registerCount x)).length ≤ memorySize := by
  rw [length_registersFrom_registerCount]
  exact hfit

theorem exec_dumpRegisters_ok (hlow : 0x200 ≤ s.dataBase) (hfit : s.dataBase + x.toNat < 0x1000) :
    exec (.dumpRegisters x) s = .next (afterStore s (s.registersFrom 0 (registerCount x))) :=
  (exec_dumpRegisters x s).trans (storeAnswer_ok _ hlow (dump_fits hfit))

/-- Settles O25: the checked write stores V0 to Vx or faults at the lowest bad address. -/
theorem dumpRegistersStoresV0ToVx : Obligations.DumpRegistersStoresV0ToVx := by
  refine ⟨encodedAs_of_encode (fun _ => encodeXNN_of_F0FF) fun _ => rfl, ?stored, ?reserved, ?outside⟩
  case stored =>
    intro x s hm hlow hfit
    refine ⟨_, exec_dumpRegisters_ok hlow hfit, fun r hr => ?register, fun a ha => ?other, rfl,
      afterStore_changesOnly s _⟩
    case register =>
      have hvalue := registersFrom_zero_getElem? s (Nat.lt_succ_of_le hr)
      rw [regOfNat_toNat] at hvalue
      exact afterStore_readByte_stored hm (dump_fits hfit) hvalue
    case other =>
      refine afterStore_readByte_outside hm (dump_fits hfit) ?_
      rw [length_registersFrom_registerCount]
      exact ha
  case reserved =>
    exact fun x s hlow => storeAnswer_reserved (.dumpRegisters x) (Nat.succ_pos _) hlow
  case outside =>
    intro x s hout
    have hx := x.isLt
    refine storeAnswer_outside (.dumpRegisters x) (Nat.succ_pos _) (show 0x200 ≤ s.dataBase by omega) ?_
    rw [length_registersFrom_registerCount]
    exact Nat.lt_succ_of_le hout

/-! ## FX65 (R225) -/

/-- The state after a load of V0 to Vx that raised no fault. -/
def afterLoad (s : State) (x : Reg) : State :=
  s.advance.loadRegistersFrom 0 (Memory.readBytes s.mem s.dataBase (registerCount x))

theorem exec_loadRegisters_ok (hfit : s.dataBase + x.toNat < 0x1000) :
    exec (.loadRegisters x) s = .next (afterLoad s x) := by
  rw [exec, execLoadRegisters, readChecked_ok s.mem (n := registerCount x) (.inr hfit), afterLoad]

theorem exec_loadRegisters_outside (hout : 0x1000 ≤ s.dataBase + x.toNat) :
    exec (.loadRegisters x) s = .next (faultedState s .memOutOfRange (encode (.loadRegisters x))
      (if s.dataBase < 0x1000 then 0x1000#16 else s.I)) := by
  rw [exec, execLoadRegisters, readChecked_error s.mem (n := registerCount x) (Nat.succ_pos _) (Nat.lt_succ_of_le hout),
    ofNat_max_dataBase]
  exact raiseFault_eq _ _ s

theorem afterLoad_readV (s : State) (x r : Reg) :
    (afterLoad s x).readV r = if r.toNat ≤ x.toNat then s.readByte (s.dataBase + r.toNat) else s.readV r := by
  have hlength : 0 + (Memory.readBytes s.mem s.dataBase (registerCount x)).length ≤ 16 := by
    rw [Nat.zero_add, Memory.readBytes_length]
    exact x.isLt
  rw [afterLoad, State.loadRegistersFrom_readV _ _ 0 hlength, if_pos (Nat.zero_le _), Nat.sub_zero,
    Memory.readBytes_getElem?, registerCount]
  simp only [Nat.lt_succ_iff]
  split <;> rfl

/-- Settles O26: the checked read gives the bytes for V0 to Vx or faults at the lowest bad address. -/
theorem loadRegistersLoadsV0ToVx : Obligations.LoadRegistersLoadsV0ToVx := by
  refine ⟨encodedAs_of_encode (fun _ => encodeXNN_of_F0FF) fun _ => rfl, fun x s hfit => ?loaded,
    fun _ _ => exec_loadRegisters_outside⟩
  refine ⟨_, exec_loadRegisters_ok hfit, fun r hr => ?register, fun r hr => ?other, State.loadRegistersFrom_pc _ _ 0,
    changesOnly_loadRegistersFrom (changesOnly_advance (by decide) s) (by decide) 0 _⟩
  case register => rw [afterLoad_readV, if_pos hr]
  case other => rw [afterLoad_readV, if_neg (Nat.not_le_of_lt hr)]

/-! ## A fetch after a store (spec/20_memory.md R67) -/

theorem nextInstr_setPc (t : State) {p : Word} (hp : p.toNat + 1 < memorySize) : (t.setPc p).nextInstr =
    (decodeWord (wordOfBytes (t.readByte p.toNat) (t.readByte (p.toNat + 1)))).toOption := by
  rw [State.nextInstr, State.setPc_pc, fetch16_ok _ hp]
  rfl

/-- Every byte after FX55. -/
theorem afterDump_readByte (hm : Memory.wf s.mem = true) (hfit : s.dataBase + x.toNat < 0x1000) (a : Nat) :
    (afterStore s (s.registersFrom 0 (registerCount x))).readByte a =
      if s.dataBase ≤ a ∧ a ≤ s.dataBase + x.toNat then s.readV (regOfNat (a - s.dataBase)) else s.readByte a := by
  have hbyte : ∀ k, k < (s.registersFrom 0 (registerCount x)).length →
      (s.registersFrom 0 (registerCount x))[k]? = some (s.readV (regOfNat k)) := fun k hk =>
    registersFrom_zero_getElem? s (Nat.lt_of_lt_of_eq hk (State.registersFrom_length s 0 _))
  rw [afterStore_readByte hm (dump_fits hfit) hbyte, length_registersFrom_registerCount]
  simp only [← Nat.add_assoc, Nat.lt_succ_iff]

/-- Every byte after FX33, for digits given by their values. -/
theorem afterBcd_readByte (hm : Memory.wf s.mem = true) (hfit : s.dataBase + 3 ≤ 0x1000) {digit : Nat → Byte}
    (h0 : (digit 0).toNat = (s.readV x).toNat / 100) (h1 : (digit 1).toNat = (s.readV x).toNat / 10 % 10)
    (h2 : (digit 2).toNat = (s.readV x).toNat % 10) (a : Nat) :
    (afterStore s (bcdDigits (s.readV x))).readByte a =
      if s.dataBase ≤ a ∧ a < s.dataBase + 3 then digit (a - s.dataBase) else s.readByte a := by
  have hdigits : bcdDigits (s.readV x) = [digit 0, digit 1, digit 2] := by
    rw [bcdDigits, ← h0, ← h1, ← h2]
    simp only [BitVec.ofNat_toNat, BitVec.setWidth_eq]
  rw [hdigits]
  refine afterStore_readByte (bs := [digit 0, digit 1, digit 2]) hm hfit (fun k hk => ?_) a
  match k, hk with
  | 0, _ | 1, _ | 2, _ => rfl

/-- Settles O46: the fetch puts together two bytes of the memory after the store, each stored or as before. -/
theorem storedBytesAreFetched : Obligations.StoredBytesAreFetched := by
  constructor
  · intro x s t hm hlow hfit hexec p hi lo hp hhi hlo
    obtain rfl := Host.Outcome.next.inj ((exec_dumpRegisters_ok hlow hfit).symm.trans hexec)
    rw [nextInstr_setPc _ hp, afterDump_readByte hm hfit, afterDump_readByte hm hfit, hhi, hlo]
    rfl
  · intro x s t hm hlow hfit hexec p digit hp h0 h1 h2
    obtain rfl := Host.Outcome.next.inj ((exec_storeBCD_ok x hlow hfit).symm.trans hexec)
    rw [nextInstr_setPc _ hp, afterBcd_readByte hm hfit h0 h1 h2, afterBcd_readByte hm hfit h0 h1 h2]

/-! ## The index register (R220 to R222) -/

theorem exec_setIndex (nnn : Addr12) (s : State) :
    exec (.setIndex nnn) s = .next (s.advance.setI (addrOperand nnn)) := rfl

theorem exec_addToIndex (x : Reg) (s : State) :
    exec (.addToIndex x) s = .next (s.advance.setI (s.I + s.wideV x)) := rfl

theorem exec_setIndexToSpriteChar (x : Reg) (s : State) : exec (.setIndexToSpriteChar x) s = .next s.advance := rfl

/-- Settles O21: I takes the zero-extended NNN. -/
theorem setIndexWritesAddress : Obligations.SetIndexWritesAddress :=
  ⟨encodedAs_of_encode (fun _ => encodeNNN_of_F000) fun _ => rfl, fun nnn s =>
    ⟨_, exec_setIndex nnn s, toNat_addrOperand nnn, rfl, changesOnly_advance_setI s _⟩⟩

/-- Settles O22: I takes the 16-bit sum with the zero-extended Vx. -/
theorem addToIndexWrapsAtSixteenBits : Obligations.AddToIndexWrapsAtSixteenBits := by
  refine ⟨encodedAs_of_encode (fun _ => encodeXNN_of_F0FF) fun _ => rfl, fun x s =>
    ⟨_, exec_addToIndex x s, ?sum, rfl, changesOnly_advance_setI s _⟩⟩
  case sum =>
    have hwide : (s.wideV x).toNat = (s.readV x).toNat := BitVec.toNat_setWidth_of_le (by decide)
    rw [State.setI_I, BitVec.toNat_add, hwide]

/-- Settles O23: FX29's meaning is the default advance. -/
theorem spriteCharOnlyAdvancesPc : Obligations.SpriteCharOnlyAdvancesPc :=
  ⟨encodedAs_of_encode (fun _ => encodeXNN_of_F0FF) fun _ => rfl, fun x s =>
    ⟨_, exec_setIndexToSpriteChar x s, rfl, changesOnly_advance List.mem_cons_self s⟩⟩

end Sys2Proof.Proofs
end

section
/-! SUPPORT. The display (spec/45_display.md R250 to R256): the blit in the closed form of `spriteBit`, what 00E0 and DXYN
leave in the framebuffer, VF and `pc`, where DXYN faults, and what two drawing instructions in a row do. -/

namespace Sys2Proof.Proofs

open Sys2Proof.Machine Sys2Proof.Safety

variable {w : Word} {s t : State} {ws : List Component} {x y : Reg} {n : Nibble}

/-! ## Words of format XYN (spec/30_encoding.md R92) -/

/-- A family of format XYN with only `a` fixed: `x`, `y` and `n` are read back. -/
theorem encodeXYN_of_F000 {fixed : Word} (h : w &&& 0xF000#16 = fixed) :
    encodeXYN (aField fixed) (xField w) (yField w) (nField w) = w := encodeXYN_of_fields (aField_of_F000 h) rfl

/-! ## The frame of a write to the framebuffer (spec/40_cycle.md R115) -/

theorem changesOnly_setFb (h : ChangesOnly ws s t) (hframebuffer : .framebuffer ∈ ws) (f : Framebuffer) :
    ChangesOnly ws s (t.setFb f) := by
  intro c hc
  cases c
  case framebuffer => exact absurd hframebuffer hc
  all_goals exact h _ hc

/-! ## The collision flag (R256) -/

theorem collisionFlag_eq_one {c : Bool} : collisionFlag c = 1#8 ↔ c = true := by
  cases c <;> decide

theorem collisionFlag_eq_zero {c : Bool} : collisionFlag c = 0#8 ↔ ¬ c = true := by
  cases c <;> decide

/-! ## The blit of rows given by a function (R253 to R255) -/

/-- A 1 bit of a sprite stands over a pixel of the grid that is on. -/
def MeetsOnPixel (bit : Nat → Nat → Bool) (f : Framebuffer) : Prop :=
  ∃ px py, px < 64 ∧ py < 32 ∧ bit px py = true ∧ Framebuffer.pixel f px py = true

section

variable {rows : List Byte} {row : Nat → Byte} {count : Nat}
  (hrows : ∀ k, rows[k]? = if k < count then some (row k) else none)

include hrows

/-- The bit of a list of rows is that of the function that gives the rows; below the last row there is none. -/
theorem rowsBit_eq_spriteBit (x0 y0 px py : Nat) : rowsBit rows x0 y0 px py = spriteBit row count x0 y0 px py := by
  rw [rowsBit, spriteBit, hrows]
  by_cases hy : y0 ≤ py
  · by_cases hk : py - y0 < count
    · have hlast : py < y0 + count := by omega
      simp [hy, hk, hlast]
    · have hlast : ¬ py < y0 + count := by omega
      simp [hk, hlast]
  · simp [hy]

theorem blit_pixel_spriteBit (vx vy : Byte) (f : Framebuffer) {px py : Nat} (hx : px < 64) (hy : py < 32) :
    Framebuffer.pixel (blit rows vx vy f).1 px py =
      (Framebuffer.pixel f px py ^^ spriteBit row count (vx.toNat % 64) (vy.toNat % 32) px py) := by
  rw [blit_pixel rows vx vy f ⟨hx, hy⟩, rowsBit_eq_spriteBit hrows]

/-- A collision needs a pixel that is on, so it lies in the grid. -/
theorem blit_collision_spriteBit (vx vy : Byte) (f : Framebuffer) :
    (blit rows vx vy f).2 = true ↔ MeetsOnPixel (spriteBit row count (vx.toNat % 64) (vy.toNat % 32)) f := by
  rw [blit_collision]
  simp only [rowsBit_eq_spriteBit hrows]
  constructor
  · rintro ⟨px, py, hbit, hon⟩
    obtain ⟨hx, hy⟩ := Framebuffer.pixel_inside hon
    exact ⟨px, py, hx, hy, hbit, hon⟩
  · rintro ⟨px, py, -, -, hbit, hon⟩
    exact ⟨px, py, hbit, hon⟩

end

theorem getElem?_eq_ite_getD (rows : List Byte) (k : Nat) :
    rows[k]? = if k < rows.length then some (rows.getD k 0#8) else none := by
  split
  · next h => rw [List.getD_eq_getElem rows 0#8 h, List.getElem?_eq_getElem h]
  · next h => exact List.getElem?_eq_none (Nat.le_of_not_lt h)

/-- Settles O28: the closed form of the blit, for the rows of a list. -/
theorem blitXorsTheClippedSprite : Obligations.BlitXorsTheClippedSprite := fun rows vx vy f =>
  ⟨fun _ _ => blit_pixel_spriteBit (getElem?_eq_ite_getD rows) vx vy f,
    blit_collision_spriteBit (getElem?_eq_ite_getD rows) vx vy f⟩

/-! ## What DXYN answers, with and without a fault (R252) -/

/-- The sprite that DXYN draws has a 1 bit for the pixel at column `px`, row `py`. -/
def drawnBit (s : State) (x y : Reg) (n : Nibble) (px py : Nat) : Bool :=
  spriteBit (spriteRow s) n.toNat ((s.readV x).toNat % 64) ((s.readV y).toNat % 32) px py

/-- The framebuffer and the collision of DXYN. -/
def drawnCanvas (s : State) (x y : Reg) (n : Nibble) : Canvas :=
  blit (Memory.readBytes s.mem s.dataBase n.toNat) (s.readV x) (s.readV y) s.fb

/-- The state after a DXYN that raised no fault. -/
def afterDraw (s : State) (x y : Reg) (n : Nibble) : State :=
  (s.advance.setFb (drawnCanvas s x y n).1).writeV VF (collisionFlag (drawnCanvas s x y n).2)

theorem exec_draw_ok (x y : Reg) (hfit : n = 0#4 ∨ s.dataBase + n.toNat ≤ 0x1000) :
    exec (.draw x y n) s = .next (afterDraw s x y n) := by
  have hread : n.toNat = 0 ∨ s.dataBase + n.toNat ≤ memorySize := hfit.imp_left (congrArg BitVec.toNat)
  rw [exec, execDraw, readChecked_ok s.mem hread]
  rfl

theorem exec_draw_outside (x y : Reg) (hn : 0 < n.toNat) (hout : 0x1000 < s.dataBase + n.toNat) :
    exec (.draw x y n) s = .next (faultedState s .memOutOfRange (encode (.draw x y n))
      (if s.dataBase < 0x1000 then 0x1000#16 else s.I)) := by
  rw [exec, execDraw, readChecked_error s.mem hn hout, ofNat_max_dataBase]
  exact raiseFault_eq _ _ s

theorem readBytes_dataBase_getElem? (s : State) (count k : Nat) :
    (Memory.readBytes s.mem s.dataBase count)[k]? = if k < count then some (spriteRow s k) else none :=
  Memory.readBytes_getElem? s.mem s.dataBase count k

theorem afterDraw_pixel (s : State) (x y : Reg) (n : Nibble) {px py : Nat} (hx : px < 64) (hy : py < 32) :
    Framebuffer.pixel (afterDraw s x y n).fb px py = (Framebuffer.pixel s.fb px py ^^ drawnBit s x y n px py) :=
  blit_pixel_spriteBit (readBytes_dataBase_getElem? s n.toNat) _ _ s.fb hx hy

theorem drawnCanvas_collision (s : State) (x y : Reg) (n : Nibble) :
    (drawnCanvas s x y n).2 = true ↔ MeetsOnPixel (drawnBit s x y n) s.fb :=
  blit_collision_spriteBit (readBytes_dataBase_getElem? s n.toNat) _ _ s.fb

theorem afterDraw_readV_VF (s : State) (x y : Reg) (n : Nibble) :
    (afterDraw s x y n).readV VF = collisionFlag (drawnCanvas s x y n).2 := readV_writeV_same _ VF _

theorem afterDraw_readV_VF_eq_one :
    (afterDraw s x y n).readV VF = 1#8 ↔ MeetsOnPixel (drawnBit s x y n) s.fb := by
  rw [afterDraw_readV_VF, collisionFlag_eq_one, drawnCanvas_collision]

theorem afterDraw_readV_VF_eq_zero (h : ∀ px py, px < 64 → py < 32 → drawnBit s x y n px py = true →
    Framebuffer.pixel s.fb px py = false) : (afterDraw s x y n).readV VF = 0#8 := by
  rw [afterDraw_readV_VF, collisionFlag_eq_zero, drawnCanvas_collision]
  rintro ⟨px, py, hx, hy, hbit, hon⟩
  rw [h px py hx hy hbit] at hon
  cases hon

/-- Settles O29: the checked read gives the rows of the blit or faults at the lowest bad address. -/
theorem drawXorsTheSpriteAndSetsCollision : Obligations.DrawXorsTheSpriteAndSetsCollision := by
  refine ⟨encodedAs_of_encode (fun _ => encodeXYN_of_F000) fun _ => rfl, fun x y n s hfit => ?drawn,
    fun x y _ _ => exec_draw_outside x y⟩
  refine ⟨_, exec_draw_ok x y hfit, fun _ _ => afterDraw_pixel s x y n, afterDraw_readV_VF_eq_one.mpr,
    afterDraw_readV_VF_eq_zero, rfl, ?registers, ?frame⟩
  case registers => exact keepsRegistersBut_writeV (fun _ _ => rfl) List.mem_cons_self _
  case frame =>
    exact changesOnly_writeV (changesOnly_setFb (changesOnly_advance (by decide) s) (by decide) _) (by decide) VF _

/-! ## 00E0 (R251) -/

/-- The state after 00E0. -/
def afterClear (s : State) : State := s.advance.setFb Framebuffer.clear

theorem exec_clearScreen (s : State) : exec .clearScreen s = .next (afterClear s) := rfl

theorem afterClear_pixel (s : State) (px py : Nat) : Framebuffer.pixel (afterClear s).fb px py = false :=
  Framebuffer.pixel_clear px py

/-- Settles O27: 00E0 is the default advance and a write of the clear framebuffer. -/
theorem clearScreenTurnsEveryPixelOff : Obligations.ClearScreenTurnsEveryPixelOff :=
  ⟨decodeWord_encode (i := .clearScreen) rfl, fun s => ⟨_, exec_clearScreen s, afterClear_pixel s, rfl,
    changesOnly_setFb (changesOnly_advance (by decide) s) (by decide) _⟩⟩

/-! ## Two drawing instructions in a row -/

/-- 00E0 changes neither the rows nor the coordinates of a draw. -/
theorem drawnBit_afterClear (s : State) (x y : Reg) (n : Nibble) (px py : Nat) :
    drawnBit (afterClear s) x y n px py = drawnBit s x y n px py := rfl

/-- A draw changes no row, so a second one draws the same sprite when the coordinates are the same. -/
theorem drawnBit_afterDraw (hx : (afterDraw s x y n).readV x = s.readV x)
    (hy : (afterDraw s x y n).readV y = s.readV y) (px py : Nat) :
    drawnBit (afterDraw s x y n) x y n px py = drawnBit s x y n px py := by
  have hrow : spriteRow (afterDraw s x y n) = spriteRow s := rfl
  rw [drawnBit, hrow, hx, hy, drawnBit]

/-- Settles O30: the second XOR with the same bits undoes the first, and a bit meets an on pixel where the first draw turned
an off pixel on. -/
theorem drawingTwiceRestoresTheScreen : Obligations.DrawingTwiceRestoresTheScreen := by
  intro x y n s t u hfit hfirst hx hy hsecond
  obtain rfl := Host.Outcome.next.inj ((exec_draw_ok x y hfit).symm.trans hfirst)
  obtain rfl := Host.Outcome.next.inj ((exec_draw_ok x y (s := afterDraw s x y n) hfit).symm.trans hsecond)
  have hbits := drawnBit_afterDraw hx hy
  refine ⟨fun px py => ?restored, afterDraw_readV_VF_eq_one.trans ?collision⟩
  case restored =>
    by_cases hgrid : px < 64 ∧ py < 32
    · obtain ⟨hpx, hpy⟩ := hgrid
      rw [afterDraw_pixel _ x y n hpx hpy, afterDraw_pixel s x y n hpx hpy, hbits, Bool.xor_assoc, Bool.xor_self,
        Bool.xor_false]
    · rw [Framebuffer.pixel_outside _ hgrid, Framebuffer.pixel_outside _ hgrid]
  case collision =>
    refine exists_congr fun px => exists_congr fun py => and_congr_right fun hpx => and_congr_right fun hpy => ?_
    rw [hbits, afterDraw_pixel s x y n hpx hpy]
    cases Framebuffer.pixel s.fb px py <;> simp

/-- Settles O31: no bit meets an on pixel of a clear screen, and the XOR with an off pixel is the bit. -/
theorem drawOnAClearScreenNeverCollides : Obligations.DrawOnAClearScreenNeverCollides := by
  intro x y n s t u hfit hclear hdraw
  obtain rfl := Host.Outcome.next.inj ((exec_clearScreen s).symm.trans hclear)
  obtain rfl := Host.Outcome.next.inj ((exec_draw_ok x y (s := afterClear s) hfit).symm.trans hdraw)
  refine ⟨afterDraw_readV_VF_eq_zero fun px py _ _ _ => afterClear_pixel s px py, fun px py hpx hpy => ?sprite⟩
  case sprite =>
    rw [afterDraw_pixel _ x y n hpx hpy, afterClear_pixel, Bool.false_xor, drawnBit_afterClear, drawnBit]

end Sys2Proof.Proofs
end

section
/-! SUPPORT. Keys and timers (spec/46_timers_keys.md R280 to R286): which words the six instructions are, on which key EX9E
and EXA1 skip and when they fault, what FX0A takes or waits for, and what FX07, FX15 and FX18 copy. -/

namespace Sys2Proof.Proofs

open Sys2Proof.Machine Sys2Proof.Safety

variable {s t : State} {ws : List Component} {x : Reg} {k : Nat}

/-! ## Frames of the timers, one rule per state operation (spec/40_cycle.md R115) -/

theorem changesOnly_setDT (h : ChangesOnly ws s t) (hdelay : .delay ∈ ws) (b : Byte) :
    ChangesOnly ws s (t.setDT b) := by
  intro c hc
  cases c
  case delay => exact absurd hdelay hc
  all_goals exact h _ hc

theorem changesOnly_setST (h : ChangesOnly ws s t) (hsound : .sound ∈ ws) (b : Byte) :
    ChangesOnly ws s (t.setST b) := by
  intro c hc
  cases c
  case sound => exact absurd hsound hc
  all_goals exact h _ hc

/-! ## The skips on a key (R280 to R282) -/

theorem exec_skipIfKeyPressed_ok (h : (s.readV x).toNat < 16) :
    exec (.skipIfKeyPressed x) s = .next (s.advance.skipIf (s.keyDown (s.readV x).toNat)) := by
  rw [exec, execSkipIfKeyPressed, keyIndex_ok h]

theorem exec_skipIfKeyNotPressed_ok (h : (s.readV x).toNat < 16) :
    exec (.skipIfKeyNotPressed x) s = .next (s.advance.skipIf (!s.keyDown (s.readV x).toNat)) := by
  rw [exec, execSkipIfKeyNotPressed, keyIndex_ok h]

theorem exec_skipIfKeyPressed_outside (h : 16 ≤ (s.readV x).toNat) : exec (.skipIfKeyPressed x) s =
    .next (faultedState s .keyIndexOutOfRange (encode (.skipIfKeyPressed x)) ((s.readV x).setWidth 16)) := by
  rw [exec, execSkipIfKeyPressed, keyIndex_error h]
  exact raiseFault_eq _ _ s

theorem exec_skipIfKeyNotPressed_outside (h : 16 ≤ (s.readV x).toNat) : exec (.skipIfKeyNotPressed x) s =
    .next (faultedState s .keyIndexOutOfRange (encode (.skipIfKeyNotPressed x)) ((s.readV x).setWidth 16)) := by
  rw [exec, execSkipIfKeyNotPressed, keyIndex_error h]
  exact raiseFault_eq _ _ s

/-- R281: a skip on a condition leaves A + 4 when it holds, else A + 2. -/
theorem advance_skipIf_pc_eq_ite (s : State) (c : Bool) :
    (s.advance.skipIf c).pc = if c = true then s.pc + 4#16 else s.pc + 2#16 :=
  (advance_skipIf_pc s c).trans (apply_ite (s.pc + ·) _ _ _)

/-- R282: a skip on the opposite of a condition leaves A + 2 when the condition holds, else A + 4. -/
theorem advance_skipIf_not_pc_eq_ite (s : State) (c : Bool) :
    (s.advance.skipIf (!c)).pc = if c = true then s.pc + 2#16 else s.pc + 4#16 := by
  rw [advance_skipIf_pc_eq_ite]
  cases c <;> rfl

/-- Settles O32: the key number is Vx when it is below 16, and is refused with its value from 16 on; the frame is that of
advance and skip. -/
theorem keySkipsTestTheKey : Obligations.KeySkipsTestTheKey :=
  ⟨encodedAs_of_encode (fun _ => encodeXNN_of_F0FF) fun _ => rfl,
    encodedAs_of_encode (fun _ => encodeXNN_of_F0FF) fun _ => rfl,
    fun _ s h =>
      ⟨⟨_, exec_skipIfKeyPressed_ok h, advance_skipIf_pc_eq_ite s _, changesOnly_advance_skipIf s _⟩,
        ⟨_, exec_skipIfKeyNotPressed_ok h, advance_skipIf_not_pc_eq_ite s _, changesOnly_advance_skipIf s _⟩⟩,
    fun _ _ h => ⟨exec_skipIfKeyPressed_outside h, exec_skipIfKeyNotPressed_outside h⟩⟩

/-! ## FX0A (R284) -/

/-- Going back after the default advance is to have done nothing. -/
theorem advance_rewind (s : State) : s.advance.rewind = s := congrArg s.setPc (advance_rewind_pc s)

theorem firstKeyDown_eq_none (h : ∀ k, k < 16 → s.keyDown k = false) : s.firstKeyDown = none :=
  (State.firstKeyFrom_none s 0 16).mpr fun k _ hk => h k (Nat.zero_add 16 ▸ hk)

theorem exec_getKeyBlocking_wait (x : Reg) (h : s.firstKeyDown = none) : exec (.getKeyBlocking x) s = .next s := by
  rw [exec, execGetKeyBlocking, h, advance_rewind]

theorem exec_getKeyBlocking_take (x : Reg) (h : s.firstKeyDown = some k) :
    exec (.getKeyBlocking x) s = .next (s.advance.writeV x (BitVec.ofNat 8 k)) := by
  rw [exec, execGetKeyBlocking, h]

theorem waits_of_firstKeyDown_none (hnext : s.nextInstr = some (.getKeyBlocking x)) (h : s.firstKeyDown = none) :
    s.waits = true := by
  rw [State.waits, hnext, h]
  rfl

theorem stepResult_waiting (hrunning : t.fault = none) (hwaits : s.waits = true) : stepResult s t = .waiting := by
  rw [stepResult, hrunning, hwaits]
  rfl

/-- Settles O34: the scan from key 0 up finds the lowest key that is down, which Vx takes; when it finds none the rewind
undoes the advance, so the step leaves its own start. -/
theorem getKeyWaitsOrTakesTheLowestKey : Obligations.GetKeyWaitsOrTakesTheLowestKey := by
  refine ⟨encodedAs_of_encode (fun _ => encodeXNN_of_F0FF) fun _ => rfl, fun x s k hk hdown hup => ?taken,
    fun x _ hup => exec_getKeyBlocking_wait x (firstKeyDown_eq_none hup), fun x s hrunning hnext hup => ?waits⟩
  case taken =>
    have hlowest : s.firstKeyDown = some k := (State.firstKeyDown_some s k).mpr ⟨hdown, hup⟩
    have hvalue : (BitVec.ofNat 8 k).toNat = k := Nat.mod_eq_of_lt (hk.trans (by decide))
    exact ⟨_, exec_getKeyBlocking_take x hlowest, (congrArg _ (readV_writeV_same _ x _)).trans hvalue,
      advance_writeV_frame s x _⟩
  case waits =>
    have hnone := firstKeyDown_eq_none hup
    exact ⟨(stepBy_nextInstr hrunning hnext).trans (exec_getKeyBlocking_wait x hnone),
      stepResult_waiting hrunning (waits_of_firstKeyDown_none hnext hnone)⟩

/-! ## The timers (R283, R285, R286) -/

theorem exec_getDelay (x : Reg) (s : State) : exec (.getDelay x) s = .next (s.advance.writeV x s.DT) := rfl

theorem exec_setDelay (x : Reg) (s : State) : exec (.setDelay x) s = .next (s.advance.setDT (s.readV x)) := rfl

theorem exec_setSound (x : Reg) (s : State) : exec (.setSound x) s = .next (s.advance.setST (s.readV x)) := rfl

/-- Settles O33: the one write is of DT, and the frame of a write to Vx keeps DT. -/
theorem getDelayReadsTheTimer : Obligations.GetDelayReadsTheTimer :=
  ⟨encodedAs_of_encode (fun _ => encodeXNN_of_F0FF) fun _ => rfl, fun x s =>
    ⟨_, exec_getDelay x s, readV_writeV_same _ x s.DT, advance_writeV_frame s x s.DT⟩⟩

/-- Settles O35: each writes Vx to its own timer after the default advance, and nothing else. -/
theorem setTimersCopyVx : Obligations.SetTimersCopyVx :=
  ⟨encodedAs_of_encode (fun _ => encodeXNN_of_F0FF) fun _ => rfl,
    encodedAs_of_encode (fun _ => encodeXNN_of_F0FF) fun _ => rfl, fun x s =>
      ⟨⟨_, exec_setDelay x s, rfl, rfl, changesOnly_setDT (changesOnly_advance (by decide) s) (by decide) _⟩,
        ⟨_, exec_setSound x s, rfl, rfl, changesOnly_setST (changesOnly_advance (by decide) s) (by decide) _⟩⟩⟩

end Sys2Proof.Proofs
end


section
/-! SUPPORT. The operations of the host (spec/60_exceptions.md R309, R312 to R314): each keeps the invariant; what TICK and
SET_KEYS write, and what READ shows. -/

namespace Sys2Proof.Proofs

open Sys2Proof.Machine Sys2Proof.Safety

variable {s t : State} {ws : List Component} {f : FaultRecord}

/-- Settles O59: the step lemma over the five operations, and the invariant of a RESET state. -/
theorem hostOperationsKeepTheInvariant : Obligations.HostOperationsKeepTheInvariant :=
  ⟨fun _ _ _ => hostStep_keeps_inv, fun _ _ => inv_of_cleanReset⟩

/-! ## TICK (R312) -/

theorem hostStep_tick (s : State) : hostStep .tick s = .next s.tick := rfl

theorem tick_DT (s : State) : s.tick.DT = timerDown s.DT := rfl

theorem tick_ST (s : State) : s.tick.ST = timerDown s.ST := rfl

/-- The rule as R312 writes it: down by one above 0, and 0 stays 0. -/
theorem toNat_timerDown_eq_ite (b : Byte) : (timerDown b).toNat = if b.toNat > 0 then b.toNat - 1 else 0 := by
  rw [toNat_timerDown]
  split <;> omega

theorem changesOnly_tick (s : State) : ChangesOnly [.delay, .sound] s s.tick :=
  changesOnly_setST (changesOnly_setDT (changesOnly_refl _ s) (by decide) _) (by decide) _

/-- Settles O54: TICK is a write of each timer, the status not consulted. -/
theorem tickCountsBothTimersDown : Obligations.TickCountsBothTimersDown := fun s =>
  ⟨s.tick, hostStep_tick s, (congrArg _ (tick_DT s)).trans (toNat_timerDown_eq_ite s.DT),
    (congrArg _ (tick_ST s)).trans (toNat_timerDown_eq_ite s.ST), changesOnly_tick s⟩

/-! ## SET_KEYS (R313) -/

theorem hostStep_setKeys (keysIn : BitVec 16) (s : State) : hostStep (.setKeys keysIn) s = .next (s.setKeys keysIn) := rfl

theorem changesOnly_setKey (h : ChangesOnly ws s t) (hkeys : .keys ∈ ws) (k : Vector Bool 16) :
    ChangesOnly ws s (t.setKey k) := by
  intro c hc
  cases c
  case keys => exact absurd hkeys hc
  all_goals exact h _ hc

theorem changesOnly_setKeys (s : State) (keysIn : BitVec 16) : ChangesOnly [.keys] s (s.setKeys keysIn) :=
  changesOnly_setKey (changesOnly_refl _ s) List.mem_cons_self _

/-- Settles O55: SET_KEYS is one write of the keyboard, bit k at key k. -/
theorem setKeysSetsEveryKey : Obligations.SetKeysSetsEveryKey := fun keysIn s =>
  ⟨s.setKeys keysIn, hostStep_setKeys keysIn s, State.setKeys_keyDown s keysIn, changesOnly_setKeys s keysIn⟩

/-! ## READ (R314, R38) -/

theorem hostStep_read (s : State) : hostStep .read s = .next s := rfl

theorem hostReply_read (s t : State) : hostReply .read s t = .observed s.observe := rfl

/-- With no record the status is RUNNING and every field reads 0. -/
theorem observe_of_running (h : s.fault = none) :
    s.observe = ⟨s.fb, s.ST, .running, 0#3, 0#16, 0#16, 0#16⟩ := by
  rw [State.observe, State.status, State.faultCause, State.faultPc, State.faultWord, State.faultInfo, h]
  rfl

/-- With a record the status is FAULTED and the fields are the record's, the cause by its code. -/
theorem observe_of_faulted (h : s.fault = some f) :
    s.observe = ⟨s.fb, s.ST, .faulted, f.cause.code, f.pc, f.word, f.info⟩ := by
  rw [State.observe, State.status, State.faultCause, State.faultPc, State.faultWord, State.faultInfo, h]
  rfl

/-- Settles O56: READ leaves its state, and what it shows is given by whether there is a record; the codes are R301's. -/
theorem readShowsStatusAndRecord : Obligations.ReadShowsStatusAndRecord := by
  refine fun s => ⟨hostStep_read s, s.observe, hostReply_read s s, rfl, rfl, fun h => ?running, fun f h => ?faulted⟩
  case running =>
    rw [observe_of_running h]
    exact ⟨rfl, rfl, rfl, rfl, rfl⟩
  case faulted =>
    have hcode : ∀ {c : FaultCause}, f.cause = c → f.cause.code = c.code := congrArg FaultCause.code
    rw [observe_of_faulted h]
    exact ⟨rfl, rfl, rfl, rfl, hcode, hcode, hcode, hcode, hcode, hcode⟩

end Sys2Proof.Proofs
end

section
/-! SUPPORT. How a step ends (spec/40_cycle.md R110 to R124): a fault of the fetch, of the decoder or of an instruction
leaves the state at the start of the step but for a record with the word that was fetched; a step in FAULTED does
nothing; no step writes below 0x200; and the result a step has. -/

namespace Sys2Proof.Proofs

open Sys2Proof.Machine Sys2Proof.Safety

variable {s t : State} {f : FaultRecord}

/-! ## Faults of the fetch and of the decoder (R113, R117) -/

/-- A fetch that leaves memory goes bad at its second byte when the first is the last of memory, else at its first. -/
theorem ofNat_max_pc (h : 0xFFF ≤ s.pc.toNat) :
    BitVec.ofNat 16 (max s.pc.toNat memorySize) = if s.pc.toNat = 0xFFF then 0x1000#16 else s.pc := by
  split
  · next hlast => rw [hlast]; rfl
  · next hne =>
    have houtside : memorySize ≤ s.pc.toNat := Nat.lt_of_le_of_ne h (Ne.symm hne)
    rw [Nat.max_eq_left houtside, BitVec.ofNat_toNat, BitVec.setWidth_eq]

/-- Settles O38: the second byte of the fetch is outside, and the record has the lowest address that is. -/
theorem fetchOutsideMemoryFaults : Obligations.FetchOutsideMemoryFaults := by
  intro s hrunning hpc
  rw [step, stepBy_fetchFault hrunning (Nat.succ_le_succ hpc), ofNat_max_pc hpc]
  rfl

/-- Settles O39: the decoder answers an error, which a step turns into the fault. -/
theorem invalidWordFaultsAndIsRecorded : Obligations.InvalidWordFaultsAndIsRecorded := by
  rintro s w hrunning hp rfl hinvalid
  cases hdecode : decodeWord (wordOfBytes (s.readByte s.pc.toNat) (s.readByte (s.pc.toNat + 1))) with
  | error e => exact stepBy_invalid hrunning hp hdecode
  | ok i =>
    rw [hdecode] at hinvalid
    cases hinvalid

/-! ## All a step can do to the state -/

/-- The word a record of this step holds: the two bytes at `pc`, or 0 when the fetch itself faults (R302). -/
def recordedWord (s : State) : Word :=
  if s.pc.toNat + 1 < 0x1000 then wordOfBytes (s.readByte s.pc.toNat) (s.readByte (s.pc.toNat + 1)) else 0#16

theorem recordedWord_of_lt (h : s.pc.toNat + 1 < memorySize) :
    recordedWord s = wordOfBytes (s.readByte s.pc.toNat) (s.readByte (s.pc.toNat + 1)) := if_pos h

theorem recordedWord_of_ge (h : memorySize ≤ s.pc.toNat + 1) : recordedWord s = 0#16 := if_neg (Nat.not_lt.mpr h)

/-- A step in FAULTED does nothing; one in RUNNING takes a fault, which sets the record alone, or runs the next
instruction and stays in RUNNING. The word an instruction records is its encoding, and so the one that was fetched. -/
theorem step_next_cases (h : step s = .next t) :
    (s.fault ≠ none ∧ t = s) ∨
    (s.fault = none ∧ ∃ cause info, t = faultedState s cause (recordedWord s) info) ∨
    (s.fault = none ∧ t.fault = none ∧ ∃ i, s.nextInstr = some i ∧ exec i s = .next t) := by
  rw [step] at h
  obtain ⟨hfaulted, hstep⟩ | ⟨hrunning, hp, hstep⟩ | ⟨hrunning, hp, w, e, rfl, -, hstep⟩ |
    ⟨hrunning, hp, w, i, rfl, hdecode, hstep⟩ := stepBy_cases exec s
  · rw [hstep] at h
    cases h
    exact .inl ⟨hfaulted, rfl⟩
  · rw [hstep, enterFaulted_eq, ← recordedWord_of_ge hp] at h
    cases h
    exact .inr (.inl ⟨hrunning, _, _, rfl⟩)
  · rw [hstep, enterFaulted_eq, ← recordedWord_of_lt hp] at h
    cases h
    exact .inr (.inl ⟨hrunning, _, _, rfl⟩)
  · rw [hstep] at h
    obtain ⟨r, -, rfl⟩ | ⟨hkept, -⟩ := exec_faultsLegally_or_leavesPc h
    · obtain ⟨hword, -⟩ := encodeOfDecodeIsTheWord _ i hdecode
      rw [hword, ← recordedWord_of_lt hp]
      exact .inr (.inl ⟨hrunning, _, _, rfl⟩)
    · exact .inr (.inr ⟨hrunning, hkept.trans hrunning, i, nextInstr_of_decodeWord hp hdecode, h⟩)

/-! ## The result of a step (R120, R121) -/

theorem stepResult_of_fault (h : t.fault = some f) : stepResult s t = .fault f := by rw [stepResult, h]

theorem stepResult_executed (hrunning : t.fault = none) (hwaits : s.waits = false) : stepResult s t = .executed := by
  rw [stepResult, hrunning, hwaits]
  rfl

/-- The three results, by whether there is a record and whether the step waited. -/
theorem stepResult_cases (s t : State) :
    (∃ f, t.fault = some f ∧ stepResult s t = .fault f) ∨
    (t.fault = none ∧ s.waits = true ∧ stepResult s t = .waiting) ∨
    (t.fault = none ∧ s.waits = false ∧ stepResult s t = .executed) := by
  cases hfault : t.fault with
  | some f => exact .inl ⟨f, rfl, stepResult_of_fault hfault⟩
  | none =>
    cases hwaits : s.waits with
    | true => exact .inr (.inl ⟨rfl, rfl, stepResult_waiting hfault hwaits⟩)
    | false => exact .inr (.inr ⟨rfl, rfl, stepResult_executed hfault hwaits⟩)

/-- A state waits exactly at an FX0A with every key up (R284). -/
theorem waits_iff :
    s.waits = true ↔ (∃ x, s.nextInstr = some (.getKeyBlocking x)) ∧ ∀ k, s.keyDown k = false := by
  constructor
  · intro h
    rw [State.waits] at h
    split at h
    · next x hnext => exact ⟨⟨x, hnext⟩, (State.firstKeyDown_none s).mp (Option.isNone_iff_eq_none.mp h)⟩
    · cases h
  · rintro ⟨⟨x, hnext⟩, hup⟩
    exact waits_of_firstKeyDown_none hnext ((State.firstKeyDown_none s).mpr hup)

/-- A step from a state that waits leaves it as it was, whatever its status. -/
theorem step_of_waits (h : s.waits = true) : step s = .next s := by
  obtain ⟨⟨x, hnext⟩, hup⟩ := waits_iff.mp h
  by_cases hrunning : s.fault = none
  · exact (stepBy_nextInstr hrunning hnext).trans (exec_getKeyBlocking_wait x ((State.firstKeyDown_none s).mpr hup))
  · exact stepBy_faulted hrunning

/-- Settles O58: each result says what `stepResult_cases` reads off the two states, and a step that waits leaves its
start. -/
theorem stepResultsAreTheThree : Obligations.StepResultsAreTheThree := by
  intro s t h
  obtain ⟨f, hfault, hresult⟩ | ⟨hrunning, hwaits, hresult⟩ | ⟨hrunning, hwaits, hresult⟩ := stepResult_cases s t <;>
    rw [hresult]
  · exact ⟨⟨fun _ => Option.ne_none_iff_exists'.mpr ⟨f, hfault⟩, fun _ => ⟨f, rfl⟩⟩, nofun, nofun⟩
  · obtain ⟨hnext, hup⟩ := waits_iff.mp hwaits
    have hsame : t = s := Host.Outcome.next.inj (h.symm.trans (step_of_waits hwaits))
    exact ⟨⟨nofun, fun hne => absurd hrunning hne⟩, fun _ => ⟨hsame, hrunning, hnext, hup⟩, nofun⟩
  · refine ⟨⟨nofun, fun hne => absurd hrunning hne⟩, nofun, fun _ => ⟨hrunning, fun x hnext => ?_⟩⟩
    by_contra hnone
    have hup : ∀ k, s.keyDown k = false := fun k => eq_false_of_ne_true fun hk => hnone ⟨k, hk⟩
    exact absurd (waits_iff.mpr ⟨⟨x, hnext⟩, hup⟩) (ne_true_of_eq_false hwaits)

/-- Settles O41: of all a step can do from RUNNING, only the fault entry leaves FAULTED. -/
theorem faultsArePrecise : Obligations.FaultsArePrecise := by
  intro s t hrunning h hfaulted
  obtain ⟨hfaultedBefore, -⟩ | ⟨-, cause, info, rfl⟩ | ⟨-, hrunningAfter, -⟩ := step_next_cases h
  · exact absurd hrunning hfaultedBefore
  · exact ⟨_, rfl, rfl, rfl, rfl⟩
  · exact absurd hrunningAfter hfaulted

/-! ## The protection of 0x000 to 0x1FF (spec/20_memory.md R53, R55) -/

/-- A checked write that was let through wrote no reserved address. -/
theorem read_writeChecked_reserved {m m' : Memory} {base a : Nat} {bs : List Byte} (hm : Memory.wf m = true)
    (h : writeChecked m base bs = .ok m') (ha : a < firstWritable) : Memory.read m' a = Memory.read m a := by
  obtain ⟨rfl, rfl | ⟨hlow, hfit⟩⟩ := writeChecked_cases h
  · rfl
  · exact Memory.read_writeBytes_outside hm hfit (.inl (ha.trans_le hlow))

theorem exec_keeps_reserved {i : Instr} {a : Nat} (hm : Memory.wf s.mem = true) (h : exec i s = .next t)
    (ha : a < firstWritable) : t.readByte a = s.readByte a := by
  by_cases hsame : t.mem = s.mem
  · exact congrArg (Memory.read · a) hsame
  · obtain ⟨x, rfl | rfl⟩ := (exec_writtenOnlyBy h).memory hsame
    · obtain ⟨r, -, rfl⟩ | ⟨m, hw, rfl⟩ := exec_storeBCD_next h
      · rfl
      · exact read_writeChecked_reserved hm hw ha
    · obtain ⟨r, -, rfl⟩ | ⟨m, hw, rfl⟩ := exec_dumpRegisters_next h
      · rfl
      · exact read_writeChecked_reserved hm hw ha

/-- Settles O45: a step that runs no instruction writes no memory, and FX33 and FX55 write by a checked write. -/
theorem stepNeverWritesReservedMemory : Obligations.StepNeverWritesReservedMemory := by
  intro s t hm h a ha
  obtain ⟨-, rfl⟩ | ⟨-, cause, info, rfl⟩ | ⟨-, -, i, -, hexec⟩ := step_next_cases h
  · rfl
  · rfl
  · exact exec_keeps_reserved hm hexec ha

/-! ## A step in FAULTED (R121), and the free byte of a step (R316) -/

theorem stepWith_of_fault (h : s.fault = some f) (randIn : Byte) : stepWith randIn s = .next s :=
  stepBy_faulted (Option.ne_none_iff_exists'.mpr ⟨f, h⟩)

/-- The free value of this draw is the byte `exec` gives a CXNN; no other instruction has one. -/
theorem exec_eq_execWith_randIn (i : Instr) (s : State) : exec i s = execWith (Config.randIn s.randCount) i s := by
  by_cases hrandom : ∃ x nn, i = .random x nn
  · obtain ⟨x, nn, rfl⟩ := hrandom
    rfl
  · exact (execWith_eq _ i s fun x nn hi => hrandom ⟨x, nn, hi⟩).symm

/-- Settles O49: the two steps agree when the meanings they run agree. -/
theorem stepDrawsTheFreeByte : Obligations.StepDrawsTheFreeByte := fun s =>
  stepBy_congr fun i _ => exec_eq_execWith_randIn i s

/-- Settles O40: with a record held no step runs, with the free byte or with any other, and the record is the result. -/
theorem stepInFaultedDoesNothing : Obligations.StepInFaultedDoesNothing := fun s _ h =>
  ⟨(stepDrawsTheFreeByte s).trans (stepWith_of_fault h _), stepResult_of_fault h, stepWith_of_fault h⟩

end Sys2Proof.Proofs
end

section
/-! SUPPORT. RESET (spec/70_reset_and_hazards.md R350 to R353): the state it leaves, component by component, and that it
alone leaves FAULTED (spec/60_exceptions.md R304). -/

namespace Sys2Proof.Proofs

open Sys2Proof.Machine Sys2Proof.Safety

variable {s t : State} {image : List Byte} {ws ws' : List Component}

/-! ## When RESET is legal (R352) -/

theorem hostStep_reset_of_le (s : State) (h : image.length ≤ maxImageLength) :
    hostStep (.reset image) s = .next (s.resetTo image) := if_pos h

theorem hostStep_reset_of_gt (s : State) (h : maxImageLength < image.length) :
    hostStep (.reset image) s = .refused .imageTooLong := if_neg (Nat.not_le.mpr h)

/-! ## What RESET leaves (spec/10_state.md R39) -/

/-- The image lies in memory that is 0 everywhere else. -/
theorem resetTo_readByte (s : State) (h : image.length ≤ maxImageLength) (a : Nat) :
    (s.resetTo image).readByte a = if loadAddress ≤ a then (image[a - loadAddress]?).getD 0#8 else 0#8 := by
  have hfit : loadAddress + image.length ≤ memorySize := (Nat.le_sub_iff_add_le' (by decide)).mp h
  exact Memory.read_writeBytes (m := []) rfl hfit a

theorem resetTo_readByte_image (s : State) (h : image.length ≤ maxImageLength) {k : Nat} (hk : k < image.length) :
    (s.resetTo image).readByte (loadAddress + k) = image[k] := by
  rw [resetTo_readByte s h, if_pos (Nat.le_add_right _ k), Nat.add_sub_cancel_left, List.getElem?_eq_getElem hk]
  rfl

theorem resetTo_readByte_outside (s : State) (h : image.length ≤ maxImageLength) {a : Nat}
    (ha : a < loadAddress ∨ loadAddress + image.length ≤ a) : (s.resetTo image).readByte a = 0#8 := by
  rw [resetTo_readByte s h]
  split
  · rw [List.getElem?_eq_none (by omega)]
    rfl
  · rfl

theorem resetTo_readV (s : State) (image : List Byte) (r : Reg) : (s.resetTo image).readV r = 0#8 :=
  Vector.getElem_replicate r.isLt

theorem resetTo_keyDown (s : State) (image : List Byte) (k : Nat) : (s.resetTo image).keyDown k = false := by
  rw [State.keyDown]
  split
  · next hk => exact Vector.getElem_replicate hk
  · rfl

/-- RESET clears the screen as 00E0 does. -/
theorem resetTo_fb (s : State) (image : List Byte) : (s.resetTo image).fb = Framebuffer.clear := rfl

/-- Settles O53: the length of the image decides whether RESET is legal, and each component it leaves is read off. -/
theorem resetLoadsTheImage : Obligations.ResetLoadsTheImage := by
  refine ⟨fun image s hfits => ⟨s.resetTo image, hostStep_reset_of_le s hfits, fun k hk => ?image, fun a ha => ?outside,
    resetTo_readV s image, rfl, rfl, rfl, rfl, rfl, resetTo_keyDown s image, fun x y => ?screen, rfl, rfl, rfl⟩,
    fun image s hlong => hostStep_reset_of_gt s hlong⟩
  case image => exact resetTo_readByte_image s hfits hk
  case outside => exact resetTo_readByte_outside s hfits ha
  case screen => rw [resetTo_fb, Framebuffer.pixel_clear]

/-- The state after reset with nothing loaded is the RESET state for the empty image. -/
theorem resetTo_reset_nil : State.reset.resetTo [] = State.reset := rfl

/-- Settles O50: a RESET state meets the invariant. -/
theorem invariantHoldsAtReset : Obligations.InvariantHoldsAtReset :=
  show Inv State.reset from resetTo_reset_nil ▸ inv_resetTo State.reset (Nat.zero_le maxImageLength)

/-! ## Leaving FAULTED (R304, R121) -/

/-- A frame may be given room. -/
theorem changesOnly_mono (h : ChangesOnly ws s t) (hsub : ws ⊆ ws') : ChangesOnly ws' s t := fun c hc =>
  h c fun hmem => hc (hsub hmem)

/-- Settles O57, operation by operation: RESET clears the record; a STEP in FAULTED and READ leave their start; TICK and
SET_KEYS do not consult the status. -/
theorem faultStaysUntilReset : Obligations.FaultStaysUntilReset := by
  intro s t op f hfault h
  obtain ⟨image, rfl, -, rfl⟩ | ⟨randIn, rfl, hstep⟩ | ⟨rfl, rfl⟩ | ⟨keysIn, rfl, rfl⟩ | ⟨rfl, rfl⟩ := hostStep_cases h
  · exact .inl ⟨⟨image, rfl⟩, rfl⟩
  · obtain rfl : t = s := Host.Outcome.next.inj (hstep.symm.trans (stepWith_of_fault hfault randIn))
    exact .inr ⟨nofun, hfault, changesOnly_refl _ _, fun _ _ => rfl, nofun, nofun, nofun⟩
  · have htick : s.tick.DT.toNat = s.DT.toNat - 1 ∧ s.tick.ST.toNat = s.ST.toNat - 1 ∧
        ChangesOnly [.delay, .sound] s s.tick :=
      ⟨toNat_timerDown s.DT, toNat_timerDown s.ST, changesOnly_tick s⟩
    exact .inr ⟨nofun, hfault, changesOnly_mono (changesOnly_tick s) (by decide), nofun, nofun, fun _ => htick, nofun⟩
  · refine .inr ⟨nofun, hfault, changesOnly_mono (changesOnly_setKeys s keysIn) (by decide), nofun, nofun, nofun, ?_⟩
    rintro _ ⟨⟩
    exact ⟨State.setKeys_keyDown s keysIn, changesOnly_setKeys s keysIn⟩
  · exact .inr ⟨nofun, hfault, changesOnly_refl _ _, nofun, fun _ => rfl, nofun, nofun⟩

end Sys2Proof.Proofs
end
